-- ==== Sys2Proof/Word.lean ====
section
/-! DEFINITION. The machine's words (00_scope.md R5: XLEN = 32, byte = 8 bits, register fields of 5 bits). -/

namespace Sys2Proof

/-- A 32-bit value: registers, pc, addresses, instruction words, extended immediates (R5). -/
abbrev Word := BitVec 32

/-- An 8-bit memory cell (R5). -/
abbrev Byte := BitVec 8

/-- A register number as an instruction names it: a 5-bit field, so always in range (R12, R51). -/
abbrev RegIdx := BitVec 5

end Sys2Proof
end

