-- ==== Sys2Proof/Syntax.lean ====
section
/-! DEFINITION. The instruction set as syntax: one constructor of `Instr` for each row of spec/opcode_table.json
(30_encoding.md R60 to R68, R71), and the decoder's output types (R62, R70). -/

namespace Sys2Proof

/-- The 11 instruction groups (R60). -/
inductive Group where
  | lui | auipc | jal | jalr | branch | load | store | opImm | op | fence | system
  deriving DecidableEq, Repr

/-- The 39 entries of the opcode table: the 37 instructions of R2 and the FENCE and SYSTEM groups (R71). -/
inductive Op where
  | lui | auipc | jal | jalr
  | beq | bne | blt | bge | bltu | bgeu
  | lb | lh | lw | lbu | lhu
  | sb | sh | sw
  | addi | slti | sltiu | xori | ori | andi | slli | srli | srai
  | add | sub | sll | slt | sltu | xor | srl | sra | or | and
  | fence | system
  deriving DecidableEq, Repr

/-- An instruction with its operands. Every immediate is the full 32-bit value that leaves the decoder (R59);
`WellFormed` says which of them an encoding can hold. FENCE and SYSTEM use no operand (R180, R181). -/
inductive Instr where
  /-- R100 -/
  | lui (rd : RegIdx) (imm : Word)
  /-- R101, R102 -/
  | auipc (rd : RegIdx) (imm : Word)
  /-- R110 -/
  | jal (rd : RegIdx) (imm : Word)
  /-- R111 -/
  | jalr (rd rs1 : RegIdx) (imm : Word)
  /-- R121 -/
  | beq (rs1 rs2 : RegIdx) (imm : Word)
  /-- R122 -/
  | bne (rs1 rs2 : RegIdx) (imm : Word)
  /-- R123 -/
  | blt (rs1 rs2 : RegIdx) (imm : Word)
  /-- R124 -/
  | bge (rs1 rs2 : RegIdx) (imm : Word)
  /-- R125 -/
  | bltu (rs1 rs2 : RegIdx) (imm : Word)
  /-- R126 -/
  | bgeu (rs1 rs2 : RegIdx) (imm : Word)
  /-- R131 -/
  | lb (rd rs1 : RegIdx) (imm : Word)
  /-- R132 -/
  | lh (rd rs1 : RegIdx) (imm : Word)
  /-- R133 -/
  | lw (rd rs1 : RegIdx) (imm : Word)
  /-- R134 -/
  | lbu (rd rs1 : RegIdx) (imm : Word)
  /-- R135 -/
  | lhu (rd rs1 : RegIdx) (imm : Word)
  /-- R141: `rs1` is the base, `rs2` the data. -/
  | sb (rs1 rs2 : RegIdx) (imm : Word)
  /-- R142 -/
  | sh (rs1 rs2 : RegIdx) (imm : Word)
  /-- R143 -/
  | sw (rs1 rs2 : RegIdx) (imm : Word)
  /-- R151 -/
  | addi (rd rs1 : RegIdx) (imm : Word)
  /-- R152 -/
  | slti (rd rs1 : RegIdx) (imm : Word)
  /-- R153 -/
  | sltiu (rd rs1 : RegIdx) (imm : Word)
  /-- R154 -/
  | xori (rd rs1 : RegIdx) (imm : Word)
  /-- R155 -/
  | ori (rd rs1 : RegIdx) (imm : Word)
  /-- R156 -/
  | andi (rd rs1 : RegIdx) (imm : Word)
  /-- R157 -/
  | slli (rd rs1 : RegIdx) (shamt : BitVec 5)
  /-- R158 -/
  | srli (rd rs1 : RegIdx) (shamt : BitVec 5)
  /-- R159 -/
  | srai (rd rs1 : RegIdx) (shamt : BitVec 5)
  /-- R166 -/
  | add (rd rs1 rs2 : RegIdx)
  /-- R167 -/
  | sub (rd rs1 rs2 : RegIdx)
  /-- R168 -/
  | sll (rd rs1 rs2 : RegIdx)
  /-- R169 -/
  | slt (rd rs1 rs2 : RegIdx)
  /-- R170 -/
  | sltu (rd rs1 rs2 : RegIdx)
  /-- R171 -/
  | xor (rd rs1 rs2 : RegIdx)
  /-- R172 -/
  | srl (rd rs1 rs2 : RegIdx)
  /-- R173 -/
  | sra (rd rs1 rs2 : RegIdx)
  /-- R174 -/
  | or (rd rs1 rs2 : RegIdx)
  /-- R175 -/
  | and (rd rs1 rs2 : RegIdx)
  /-- R180: every word of the FENCE group. -/
  | fence
  /-- R181: every word of the SYSTEM group. -/
  | system
  deriving DecidableEq, Repr

/-- The table entry an instruction belongs to (R62's output `op`, and the two groups). -/
def Instr.op : Instr → Op
  | .lui _ _ => .lui
  | .auipc _ _ => .auipc
  | .jal _ _ => .jal
  | .jalr _ _ _ => .jalr
  | .beq _ _ _ => .beq
  | .bne _ _ _ => .bne
  | .blt _ _ _ => .blt
  | .bge _ _ _ => .bge
  | .bltu _ _ _ => .bltu
  | .bgeu _ _ _ => .bgeu
  | .lb _ _ _ => .lb
  | .lh _ _ _ => .lh
  | .lw _ _ _ => .lw
  | .lbu _ _ _ => .lbu
  | .lhu _ _ _ => .lhu
  | .sb _ _ _ => .sb
  | .sh _ _ _ => .sh
  | .sw _ _ _ => .sw
  | .addi _ _ _ => .addi
  | .slti _ _ _ => .slti
  | .sltiu _ _ _ => .sltiu
  | .xori _ _ _ => .xori
  | .ori _ _ _ => .ori
  | .andi _ _ _ => .andi
  | .slli _ _ _ => .slli
  | .srli _ _ _ => .srli
  | .srai _ _ _ => .srai
  | .add _ _ _ => .add
  | .sub _ _ _ => .sub
  | .sll _ _ _ => .sll
  | .slt _ _ _ => .slt
  | .sltu _ _ _ => .sltu
  | .xor _ _ _ => .xor
  | .srl _ _ _ => .srl
  | .sra _ _ _ => .sra
  | .or _ _ _ => .or
  | .and _ _ _ => .and
  | .fence => .fence
  | .system => .system

/-- Why the decoder rejects a word: the eight classes of R70, and fewer than four bytes given. -/
inductive DecodeReject where
  /-- fewer than the four bytes of an instruction word were given (R50) -/
  | truncated
  /-- R70 item 1: `instr[6:0]` is none of the 11 opcodes -/
  | unknownOpcode
  /-- R70 item 2: BRANCH with funct3 010 or 011 -/
  | branchFunct3
  /-- R70 item 3: LOAD with funct3 011, 110 or 111 -/
  | loadFunct3
  /-- R70 item 4: STORE with funct3 011, 100, 101, 110 or 111 -/
  | storeFunct3
  /-- R70 item 5: OP-IMM funct3 001 with `instr[31:25]` not 0000000 -/
  | leftShiftUpperBits
  /-- R70 item 6: OP-IMM funct3 101 with `instr[31:25]` neither 0000000 nor 0100000 -/
  | rightShiftUpperBits
  /-- R70 item 7: OP with funct7 neither 0000000 nor 0100000 -/
  | opFunct7
  /-- R70 item 8: OP with funct7 0100000 and funct3 neither 000 nor 101 -/
  | opFunct3
  deriving DecidableEq, Repr

/-- What the decoder answers for a word: an instruction, or a rejection by name. -/
inductive Decoded where
  | ok (i : Instr)
  | rejected (r : DecodeReject)
  deriving DecidableEq, Repr

/-- The instruction, where there is one. -/
def Decoded.toOption : Decoded → Option Instr
  | .ok i => some i
  | .rejected _ => none

end Sys2Proof
end

