-- ==== Sys2Proof/WellFormed.lean ====
section
/-! DEFINITION. Which instructions an encoding can hold: the range of each format's immediate and the alignment
granularity of B and J (30_encoding.md R52 to R58, R74). Register and shift-amount fields are 5-bit by type. -/

namespace Sys2Proof

/-- R52: a U immediate has its low 12 bits zero. -/
def fitsU (imm : Word) : Bool := decide (imm.toNat % 4096 = 0)

/-- R53, R54: an I or S immediate is -2048 to 2047 as a signed number. -/
def fits12 (imm : Word) : Bool := decide (-2048 ≤ imm.toInt ∧ imm.toInt ≤ 2047)

/-- R55: a B offset is even and -4096 to 4094. -/
def fitsB (imm : Word) : Bool := decide (-4096 ≤ imm.toInt ∧ imm.toInt ≤ 4094 ∧ imm.toInt % 2 = 0)

/-- R56: a J offset is even and -1048576 to 1048574. -/
def fitsJ (imm : Word) : Bool := decide (-1048576 ≤ imm.toInt ∧ imm.toInt ≤ 1048574 ∧ imm.toInt % 2 = 0)

/-- R74: the instruction lies in the legal range of every field of its format. -/
def Instr.wellFormed : Instr → Bool
  | .lui _ imm => fitsU imm
  | .auipc _ imm => fitsU imm
  | .jal _ imm => fitsJ imm
  | .jalr _ _ imm => fits12 imm
  | .beq _ _ imm => fitsB imm
  | .bne _ _ imm => fitsB imm
  | .blt _ _ imm => fitsB imm
  | .bge _ _ imm => fitsB imm
  | .bltu _ _ imm => fitsB imm
  | .bgeu _ _ imm => fitsB imm
  | .lb _ _ imm => fits12 imm
  | .lh _ _ imm => fits12 imm
  | .lw _ _ imm => fits12 imm
  | .lbu _ _ imm => fits12 imm
  | .lhu _ _ imm => fits12 imm
  | .sb _ _ imm => fits12 imm
  | .sh _ _ imm => fits12 imm
  | .sw _ _ imm => fits12 imm
  | .addi _ _ imm => fits12 imm
  | .slti _ _ imm => fits12 imm
  | .sltiu _ _ imm => fits12 imm
  | .xori _ _ imm => fits12 imm
  | .ori _ _ imm => fits12 imm
  | .andi _ _ imm => fits12 imm
  | .slli _ _ _ => true
  | .srli _ _ _ => true
  | .srai _ _ _ => true
  | .add _ _ _ => true
  | .sub _ _ _ => true
  | .sll _ _ _ => true
  | .slt _ _ _ => true
  | .sltu _ _ _ => true
  | .xor _ _ _ => true
  | .srl _ _ _ => true
  | .sra _ _ _ => true
  | .or _ _ _ => true
  | .and _ _ _ => true
  | .fence => true
  | .system => true

end Sys2Proof
end

