-- ==== Sys2Proof/Decode.lean ====
section
/-! DEFINITION. The decoder (30_encoding.md R50 to R73): total on every word and every byte string, rejecting by name;
and after it the encoder, written from the format tables R52 to R58 and the opcode map R60, R63 to R68.
PRESUMED (log 8): the funct3 and funct7 values and positions are the spec's own, from general knowledge. -/

namespace Sys2Proof

/-! ### Fields (R51) and immediates (R52 to R56, R59) -/

def opcodeOf (w : Word) : BitVec 7 := w.extractLsb' 0 7
def rdOf (w : Word) : RegIdx := w.extractLsb' 7 5
def funct3Of (w : Word) : BitVec 3 := w.extractLsb' 12 3
def rs1Of (w : Word) : RegIdx := w.extractLsb' 15 5
/-- `rs2`, which is also `shamt` for the shift-immediates (R58, R62). -/
def rs2Of (w : Word) : RegIdx := w.extractLsb' 20 5
def funct7Of (w : Word) : BitVec 7 := w.extractLsb' 25 7

/-- R52: `instr[31:12] ## 0b000000000000`. -/
def immU (w : Word) : Word := w.extractLsb' 12 20 ++ 0#12

/-- R53: `sext_12(instr[31:20])`. -/
def immI (w : Word) : Word := (w.extractLsb' 20 12).signExtend 32

/-- R54: `sext_12(instr[31:25] ## instr[11:7])`. -/
def immS (w : Word) : Word := (w.extractLsb' 25 7 ++ w.extractLsb' 7 5 : BitVec 12).signExtend 32

/-- R55 (bit order: log 21): `sext_13(instr[31] ## instr[7] ## instr[30:25] ## instr[11:8] ## 0b0)`. -/
def immB (w : Word) : Word :=
  (w.extractLsb' 31 1 ++ w.extractLsb' 7 1 ++ w.extractLsb' 25 6 ++ w.extractLsb' 8 4 ++ 0#1 : BitVec 13).signExtend 32

/-- R56 (bit order: log 21): `sext_21(instr[31] ## instr[19:12] ## instr[20] ## instr[30:21] ## 0b0)`. -/
def immJ (w : Word) : Word :=
  (w.extractLsb' 31 1 ++ w.extractLsb' 12 8 ++ w.extractLsb' 20 1 ++ w.extractLsb' 21 10 ++ 0#1 : BitVec 21).signExtend 32

/-! ### The group (R60) -/

/-- R60: the group an opcode names, none for every other value of `instr[6:0]`. -/
def groupOf (w : Word) : Option Group :=
  if opcodeOf w = 0b0110111#7 then some .lui
  else if opcodeOf w = 0b0010111#7 then some .auipc
  else if opcodeOf w = 0b1101111#7 then some .jal
  else if opcodeOf w = 0b1100111#7 then some .jalr
  else if opcodeOf w = 0b1100011#7 then some .branch
  else if opcodeOf w = 0b0000011#7 then some .load
  else if opcodeOf w = 0b0100011#7 then some .store
  else if opcodeOf w = 0b0010011#7 then some .opImm
  else if opcodeOf w = 0b0110011#7 then some .op
  else if opcodeOf w = 0b0001111#7 then some .fence
  else if opcodeOf w = 0b1110011#7 then some .system
  else none

/-! ### The operation, by masked-equality match (R61) -/

/-- One (mask, match) pair of the opcode table (R61); `pattern` is its match value. -/
structure Row where
  op : Op
  mask : Word
  pattern : Word
  deriving DecidableEq, Repr

/-- R61: `(instr & mask) = match`. -/
def Row.accepts (r : Row) (w : Word) : Bool := w &&& r.mask == r.pattern

/-- R68, R71: keyed by the opcode alone. JALR too: its bits 14:12 are not compared (log 10). -/
def rowsByOpcode : List Row :=
  [⟨.lui, 0x0000007F#32, 0x00000037#32⟩,
   ⟨.auipc, 0x0000007F#32, 0x00000017#32⟩,
   ⟨.jal, 0x0000007F#32, 0x0000006F#32⟩,
   ⟨.jalr, 0x0000007F#32, 0x00000067#32⟩,
   ⟨.fence, 0x0000007F#32, 0x0000000F#32⟩,
   ⟨.system, 0x0000007F#32, 0x00000073#32⟩]

/-- R63 -/
def rowsBranch : List Row :=
  [⟨.beq, 0x0000707F#32, 0x00000063#32⟩,
   ⟨.bne, 0x0000707F#32, 0x00001063#32⟩,
   ⟨.blt, 0x0000707F#32, 0x00004063#32⟩,
   ⟨.bge, 0x0000707F#32, 0x00005063#32⟩,
   ⟨.bltu, 0x0000707F#32, 0x00006063#32⟩,
   ⟨.bgeu, 0x0000707F#32, 0x00007063#32⟩]

/-- R64 -/
def rowsLoad : List Row :=
  [⟨.lb, 0x0000707F#32, 0x00000003#32⟩,
   ⟨.lh, 0x0000707F#32, 0x00001003#32⟩,
   ⟨.lw, 0x0000707F#32, 0x00002003#32⟩,
   ⟨.lbu, 0x0000707F#32, 0x00004003#32⟩,
   ⟨.lhu, 0x0000707F#32, 0x00005003#32⟩]

/-- R65 -/
def rowsStore : List Row :=
  [⟨.sb, 0x0000707F#32, 0x00000023#32⟩,
   ⟨.sh, 0x0000707F#32, 0x00001023#32⟩,
   ⟨.sw, 0x0000707F#32, 0x00002023#32⟩]

/-- R66; for the shifts all seven bits `instr[31:25]` are compared (log 11). -/
def rowsOpImm : List Row :=
  [⟨.addi, 0x0000707F#32, 0x00000013#32⟩,
   ⟨.slti, 0x0000707F#32, 0x00002013#32⟩,
   ⟨.sltiu, 0x0000707F#32, 0x00003013#32⟩,
   ⟨.xori, 0x0000707F#32, 0x00004013#32⟩,
   ⟨.ori, 0x0000707F#32, 0x00006013#32⟩,
   ⟨.andi, 0x0000707F#32, 0x00007013#32⟩,
   ⟨.slli, 0xFE00707F#32, 0x00001013#32⟩,
   ⟨.srli, 0xFE00707F#32, 0x00005013#32⟩,
   ⟨.srai, 0xFE00707F#32, 0x40005013#32⟩]

/-- R67; all seven bits of funct7 are compared (log 11). -/
def rowsOp : List Row :=
  [⟨.add, 0xFE00707F#32, 0x00000033#32⟩,
   ⟨.sub, 0xFE00707F#32, 0x40000033#32⟩,
   ⟨.sll, 0xFE00707F#32, 0x00001033#32⟩,
   ⟨.slt, 0xFE00707F#32, 0x00002033#32⟩,
   ⟨.sltu, 0xFE00707F#32, 0x00003033#32⟩,
   ⟨.xor, 0xFE00707F#32, 0x00004033#32⟩,
   ⟨.srl, 0xFE00707F#32, 0x00005033#32⟩,
   ⟨.sra, 0xFE00707F#32, 0x40005033#32⟩,
   ⟨.or, 0xFE00707F#32, 0x00006033#32⟩,
   ⟨.and, 0xFE00707F#32, 0x00007033#32⟩]

/-- The 39 pairs. They are pairwise disjoint (R69), so their order has no effect. -/
def opcodeTable : List Row :=
  rowsByOpcode ++ rowsBranch ++ rowsLoad ++ rowsStore ++ rowsOpImm ++ rowsOp

/-- The operation a word encodes, none where no pair matches (R61). -/
def opOf (w : Word) : Option Op := (opcodeTable.find? (·.accepts w)).map (·.op)

/-- The instruction of an operation with the operands its format takes from the word (R51 to R58). -/
def operandsOf (o : Op) (w : Word) : Instr :=
  match o with
  | .lui => .lui (rdOf w) (immU w)
  | .auipc => .auipc (rdOf w) (immU w)
  | .jal => .jal (rdOf w) (immJ w)
  | .jalr => .jalr (rdOf w) (rs1Of w) (immI w)
  | .beq => .beq (rs1Of w) (rs2Of w) (immB w)
  | .bne => .bne (rs1Of w) (rs2Of w) (immB w)
  | .blt => .blt (rs1Of w) (rs2Of w) (immB w)
  | .bge => .bge (rs1Of w) (rs2Of w) (immB w)
  | .bltu => .bltu (rs1Of w) (rs2Of w) (immB w)
  | .bgeu => .bgeu (rs1Of w) (rs2Of w) (immB w)
  | .lb => .lb (rdOf w) (rs1Of w) (immI w)
  | .lh => .lh (rdOf w) (rs1Of w) (immI w)
  | .lw => .lw (rdOf w) (rs1Of w) (immI w)
  | .lbu => .lbu (rdOf w) (rs1Of w) (immI w)
  | .lhu => .lhu (rdOf w) (rs1Of w) (immI w)
  | .sb => .sb (rs1Of w) (rs2Of w) (immS w)
  | .sh => .sh (rs1Of w) (rs2Of w) (immS w)
  | .sw => .sw (rs1Of w) (rs2Of w) (immS w)
  | .addi => .addi (rdOf w) (rs1Of w) (immI w)
  | .slti => .slti (rdOf w) (rs1Of w) (immI w)
  | .sltiu => .sltiu (rdOf w) (rs1Of w) (immI w)
  | .xori => .xori (rdOf w) (rs1Of w) (immI w)
  | .ori => .ori (rdOf w) (rs1Of w) (immI w)
  | .andi => .andi (rdOf w) (rs1Of w) (immI w)
  | .slli => .slli (rdOf w) (rs1Of w) (rs2Of w)
  | .srli => .srli (rdOf w) (rs1Of w) (rs2Of w)
  | .srai => .srai (rdOf w) (rs1Of w) (rs2Of w)
  | .add => .add (rdOf w) (rs1Of w) (rs2Of w)
  | .sub => .sub (rdOf w) (rs1Of w) (rs2Of w)
  | .sll => .sll (rdOf w) (rs1Of w) (rs2Of w)
  | .slt => .slt (rdOf w) (rs1Of w) (rs2Of w)
  | .sltu => .sltu (rdOf w) (rs1Of w) (rs2Of w)
  | .xor => .xor (rdOf w) (rs1Of w) (rs2Of w)
  | .srl => .srl (rdOf w) (rs1Of w) (rs2Of w)
  | .sra => .sra (rdOf w) (rs1Of w) (rs2Of w)
  | .or => .or (rdOf w) (rs1Of w) (rs2Of w)
  | .and => .and (rdOf w) (rs1Of w) (rs2Of w)
  | .fence => .fence
  | .system => .system

/-- Which of R70's eight classes a word that no pair matches falls in. -/
def rejectReason (w : Word) : DecodeReject :=
  match groupOf w with
  | some .branch => .branchFunct3
  | some .load => .loadFunct3
  | some .store => .storeFunct3
  | some .opImm => if funct3Of w = 0b001#3 then .leftShiftUpperBits else .rightShiftUpperBits
  | some .op => if funct7Of w = 0b0100000#7 then .opFunct3 else .opFunct7
  | _ => .unknownOpcode

/-- The decoder (R60 to R62): total, a function of the 32-bit word alone. A word of the FENCE or SYSTEM group
decodes to its table row, whose meaning is the fault (R71). -/
def decode (w : Word) : Decoded :=
  match opOf w with
  | some o => .ok (operandsOf o w)
  | none => .rejected (rejectReason w)

/-- Four bytes as a word, most-significant byte first (R33, R37). -/
def wordOfBytes (b0 b1 b2 b3 : Byte) : Word := b0 ++ b1 ++ b2 ++ b3

/-- A word's four bytes, the most-significant first (R34). -/
def bytesOfWord (w : Word) : List Byte :=
  [w.extractLsb' 24 8, w.extractLsb' 16 8, w.extractLsb' 8 8, w.extractLsb' 0 8]

/-- The decoder on any byte string: the first four bytes are the instruction word (R37, R50). -/
def decodeBytes : List Byte → Decoded
  | b0 :: b1 :: b2 :: b3 :: _ => decode (wordOfBytes b0 b1 b2 b3)
  | _ => .rejected .truncated

/-- The instruction the decoder reads from a word numbered as the opcode table numbers it (the host's probe):
the bits above `nbits` are 0, the word is laid out as the hardware stores it and given to the decoder. -/
def decodeTableWord (nbits w : Nat) : Option Instr :=
  (decodeBytes (bytesOfWord (BitVec.ofNat 32 (w % 2 ^ nbits)))).toOption

/-! ### The decoder as hardware (R62) -/

/-- R62's verdict: no pair matches, or the word is of the FENCE or SYSTEM group (R71). -/
def illegalWord (w : Word) : Bool :=
  match opOf w with
  | none | some .fence | some .system => true
  | some _ => false

/-- The immediate of a group's format, none where the format has none (R62: "not used for OP"). -/
def immOf (g : Option Group) (w : Word) : Option Word :=
  match g with
  | some .lui | some .auipc => some (immU w)
  | some .jal => some (immJ w)
  | some .jalr | some .load | some .opImm => some (immI w)
  | some .branch => some (immB w)
  | some .store => some (immS w)
  | some .op | some .fence | some .system | none => none

/-- The decoder's outputs (R62). An output the rule calls meaningful only at times is an Option. -/
structure DecoderOutputs where
  illegal : Bool
  group : Option Group
  op : Option Op
  rd : RegIdx
  rs1 : RegIdx
  rs2 : RegIdx
  funct3 : BitVec 3
  funct7 : BitVec 7
  imm : Option Word
  deriving DecidableEq, Repr

def decoderOutputs (w : Word) : DecoderOutputs :=
  { illegal := illegalWord w
    group := groupOf w
    op := if illegalWord w then none else opOf w
    rd := rdOf w
    rs1 := rs1Of w
    rs2 := rs2Of w
    funct3 := funct3Of w
    funct7 := funct7Of w
    imm := immOf (groupOf w) w }

/-! ### The encoder: the decoder's inverse (R74) -/

/-- R52 -/
def encodeU (opcode : BitVec 7) (rd : RegIdx) (imm : Word) : Word :=
  imm.extractLsb' 12 20 ++ rd ++ opcode

/-- R53 -/
def encodeI (opcode : BitVec 7) (funct3 : BitVec 3) (rd rs1 : RegIdx) (imm : Word) : Word :=
  imm.extractLsb' 0 12 ++ rs1 ++ funct3 ++ rd ++ opcode

/-- R54 -/
def encodeS (opcode : BitVec 7) (funct3 : BitVec 3) (rs1 rs2 : RegIdx) (imm : Word) : Word :=
  imm.extractLsb' 5 7 ++ rs2 ++ rs1 ++ funct3 ++ imm.extractLsb' 0 5 ++ opcode

/-- R55 -/
def encodeB (opcode : BitVec 7) (funct3 : BitVec 3) (rs1 rs2 : RegIdx) (imm : Word) : Word :=
  imm.extractLsb' 12 1 ++ imm.extractLsb' 5 6 ++ rs2 ++ rs1 ++ funct3 ++ imm.extractLsb' 1 4 ++ imm.extractLsb' 11 1
    ++ opcode

/-- R56 -/
def encodeJ (opcode : BitVec 7) (rd : RegIdx) (imm : Word) : Word :=
  imm.extractLsb' 20 1 ++ imm.extractLsb' 1 10 ++ imm.extractLsb' 11 1 ++ imm.extractLsb' 12 8 ++ rd ++ opcode

/-- R57; the shift form of the I format (R58) has the same layout, with `shamt` in the place of `rs2`. -/
def encodeR (opcode : BitVec 7) (funct7 : BitVec 7) (funct3 : BitVec 3) (rd rs1 rs2 : RegIdx) : Word :=
  funct7 ++ rs2 ++ rs1 ++ funct3 ++ rd ++ opcode

/-- The word of an instruction: the opcode map R60, R63 to R68 in the formats R52 to R58. Bits that no rule compares
and no field uses (JALR 14:12, FENCE and SYSTEM 31:7) are written 0 (log 18). DESIGN CHOICE (log 18): of an immediate that is
out of range, odd (B, J) or has nonzero low bits (U) only the bits its format holds are kept, without a refusal; what the
source's encoder does with one is not stated (R74, 91_not_in_source.md N10). -/
def encode : Instr → Word
  | .lui rd imm => encodeU 0b0110111 rd imm
  | .auipc rd imm => encodeU 0b0010111 rd imm
  | .jal rd imm => encodeJ 0b1101111 rd imm
  | .jalr rd rs1 imm => encodeI 0b1100111 0b000 rd rs1 imm
  | .beq rs1 rs2 imm => encodeB 0b1100011 0b000 rs1 rs2 imm
  | .bne rs1 rs2 imm => encodeB 0b1100011 0b001 rs1 rs2 imm
  | .blt rs1 rs2 imm => encodeB 0b1100011 0b100 rs1 rs2 imm
  | .bge rs1 rs2 imm => encodeB 0b1100011 0b101 rs1 rs2 imm
  | .bltu rs1 rs2 imm => encodeB 0b1100011 0b110 rs1 rs2 imm
  | .bgeu rs1 rs2 imm => encodeB 0b1100011 0b111 rs1 rs2 imm
  | .lb rd rs1 imm => encodeI 0b0000011 0b000 rd rs1 imm
  | .lh rd rs1 imm => encodeI 0b0000011 0b001 rd rs1 imm
  | .lw rd rs1 imm => encodeI 0b0000011 0b010 rd rs1 imm
  | .lbu rd rs1 imm => encodeI 0b0000011 0b100 rd rs1 imm
  | .lhu rd rs1 imm => encodeI 0b0000011 0b101 rd rs1 imm
  | .sb rs1 rs2 imm => encodeS 0b0100011 0b000 rs1 rs2 imm
  | .sh rs1 rs2 imm => encodeS 0b0100011 0b001 rs1 rs2 imm
  | .sw rs1 rs2 imm => encodeS 0b0100011 0b010 rs1 rs2 imm
  | .addi rd rs1 imm => encodeI 0b0010011 0b000 rd rs1 imm
  | .slti rd rs1 imm => encodeI 0b0010011 0b010 rd rs1 imm
  | .sltiu rd rs1 imm => encodeI 0b0010011 0b011 rd rs1 imm
  | .xori rd rs1 imm => encodeI 0b0010011 0b100 rd rs1 imm
  | .ori rd rs1 imm => encodeI 0b0010011 0b110 rd rs1 imm
  | .andi rd rs1 imm => encodeI 0b0010011 0b111 rd rs1 imm
  | .slli rd rs1 shamt => encodeR 0b0010011 0b0000000 0b001 rd rs1 shamt
  | .srli rd rs1 shamt => encodeR 0b0010011 0b0000000 0b101 rd rs1 shamt
  | .srai rd rs1 shamt => encodeR 0b0010011 0b0100000 0b101 rd rs1 shamt
  | .add rd rs1 rs2 => encodeR 0b0110011 0b0000000 0b000 rd rs1 rs2
  | .sub rd rs1 rs2 => encodeR 0b0110011 0b0100000 0b000 rd rs1 rs2
  | .sll rd rs1 rs2 => encodeR 0b0110011 0b0000000 0b001 rd rs1 rs2
  | .slt rd rs1 rs2 => encodeR 0b0110011 0b0000000 0b010 rd rs1 rs2
  | .sltu rd rs1 rs2 => encodeR 0b0110011 0b0000000 0b011 rd rs1 rs2
  | .xor rd rs1 rs2 => encodeR 0b0110011 0b0000000 0b100 rd rs1 rs2
  | .srl rd rs1 rs2 => encodeR 0b0110011 0b0000000 0b101 rd rs1 rs2
  | .sra rd rs1 rs2 => encodeR 0b0110011 0b0100000 0b101 rd rs1 rs2
  | .or rd rs1 rs2 => encodeR 0b0110011 0b0000000 0b110 rd rs1 rs2
  | .and rd rs1 rs2 => encodeR 0b0110011 0b0000000 0b111 rd rs1 rs2
  | .fence => 0b0001111
  | .system => 0b1110011

end Sys2Proof
end

