-- ==== Sys2Proof/Machine/Flags.lean ====
section
/-! DEFINITION. Comparisons. The machine has no flag, condition code, carry or overflow bit (10_state.md R18): a comparison
writes 0 or 1 into a register (40_step_and_datapath.md R86) or steers the pc (R89), and leaves nothing else behind. -/

namespace Sys2Proof.Machine

/-- `a <s b` (00_scope.md, notation): the two's-complement readings compared. -/
def lessSigned (a b : Word) : Bool := decide (a.toInt < b.toInt)

/-- `a <u b`: the unsigned readings compared. -/
def lessUnsigned (a b : Word) : Bool := decide (a.toNat < b.toNat)

/-- R86: a comparison's result as a register value, 1 or 0. -/
def boolWord (c : Bool) : Word := if c then 1#32 else 0#32

/-- The six conditions of the BRANCH group (R89). -/
inductive BranchCond where
  | eq | ne | lt | ge | ltu | geu
  deriving DecidableEq, Repr

/-- R89: the branch comparator. -/
def branchTaken (c : BranchCond) (a b : Word) : Bool :=
  match c with
  | .eq => decide (a = b)
  | .ne => decide (a ≠ b)
  | .lt => lessSigned a b
  | .ge => !lessSigned a b
  | .ltu => lessUnsigned a b
  | .geu => !lessUnsigned a b

end Sys2Proof.Machine
end

