-- ==== Sys2Proof/Machine/Operands.lean ====
section
/-! DEFINITION. Operand forms of the datapath: access widths (20_memory.md R32), address and target adders
(40_step_and_datapath.md R90), shift amounts (R87), load extension (R92). Flags and control registers are no operands:
there are none (10_state.md R18, R21). -/

namespace Sys2Proof.Machine

/-- R32: the three access widths. -/
inductive Width where
  | byte | half | word
  deriving DecidableEq, Repr

/-- R32: how many bytes an access of this width touches. -/
def Width.bytes : Width → Nat
  | .byte => 1
  | .half => 2
  | .word => 4

/-- R92: how a load handler makes the register value of what the port returns. -/
inductive LoadExt where
  | signed | unsigned
  deriving DecidableEq, Repr

/-- R36, R90: base register plus sign-extended displacement, modulo `2^32`. -/
def effectiveAddress (base imm : Word) : Word := base + imm

/-- R82: the address of the next instruction in sequence, modulo `2^32` (R17); also the link value (R110, R111). -/
def sequential (pc : Word) : Word := pc + 4#32

/-- R90: the JAL and BRANCH target, the AUIPC sum. No alignment check (R112). -/
def pcRelative (pc imm : Word) : Word := pc + imm

/-- R111: the JALR target, bit 0 cleared. -/
def jalrTarget (base imm : Word) : Word := (base + imm) &&& 0xFFFFFFFE#32

/-- R87: the shift amount is the low five bits of the second operand. For SLL, SRL, SRA the spec supplies this from
general knowledge (D6). PRESUMED (log 9). -/
def shiftAmount (b : Word) : Nat := (b.extractLsb' 0 5).toNat

/-- R92: the value a load writes, from the zero-extended value `v` the port returns (R33). -/
def extendLoad (w : Width) (e : LoadExt) (v : Word) : Word :=
  match w, e with
  | .byte, .signed => (v.extractLsb' 0 8).signExtend 32
  | .half, .signed => (v.extractLsb' 0 16).signExtend 32
  | .byte, .unsigned => (v.extractLsb' 0 8).setWidth 32
  | .half, .unsigned => (v.extractLsb' 0 16).setWidth 32
  | .word, _ => v

end Sys2Proof.Machine
end

