-- ==== Sys2Proof/Machine/Alu.lean ====
section
/-! DEFINITION. The ALU (40_step_and_datapath.md R84 to R88): a function of a selector and two 32-bit operands. -/

namespace Sys2Proof.Machine

/-- The ten functions of R84. -/
inductive AluOp where
  | add | sub | sll | slt | sltu | xor | srl | sra | or | and
  deriving DecidableEq, Repr

/-- R84: `alu(f, a, b)`. Sums and differences are modulo `2^32`, overflow and carry recorded nowhere (R85). -/
def alu (f : AluOp) (a b : Word) : Word :=
  match f with
  | .add => a + b
  | .sub => a - b
  | .sll => a <<< shiftAmount b
  | .slt => boolWord (lessSigned a b)
  | .sltu => boolWord (lessUnsigned a b)
  | .xor => a ^^^ b
  | .srl => a >>> shiftAmount b
  | .sra => a.sshiftRight (shiftAmount b)
  | .or => a ||| b
  | .and => a &&& b

end Sys2Proof.Machine
end

