-- ==== Sys2Proof/Config.lean ====
section
/-! DEFINITION. The launch parameters of the machine (00_scope.md R6, R7), fixed for a run. -/

namespace Sys2Proof

/-- The open parameter AUIPC_MODE (R7). -/
inductive AuipcMode where
  /-- AUIPC as rule R101: the value the spec names where a single value is wanted. -/
  | canonical
  /-- AUIPC as rule R102, rebuilt from the source's scenario (log 6). -/
  | legacySource
  deriving DecidableEq, Repr

/-- The parameters of a launch that every step reads and none changes (R6, R7, R23).
MEM_INIT (R8), the third, is the memory of the launch state: `State.launch`. -/
structure Config where
  /-- RAM_SIZE_WORDS: memory holds `4 * RAM_SIZE_WORDS` bytes (R6). -/
  ramSizeWords : Nat
  auipcMode : AuipcMode
  deriving DecidableEq, Repr

/-- The range the spec admits: `0 <= RAM_SIZE_WORDS <= 2^30` (R6, D12). -/
def Config.valid (c : Config) : Bool := decide (c.ramSizeWords ≤ 1073741824)

/-- The parameters of `State.reset`. DESIGN CHOICE (log 5): the largest memory the spec admits, so that every
32-bit address exists; the spec fixes no size. The mode is R7's default. -/
def Config.atReset : Config := ⟨1073741824, .canonical⟩

end Sys2Proof
end

