-- ==== Sys2Proof/Machine/State.lean ====
section
/-! DEFINITION. The state of the machine (10_state.md), all of it, as plain data; the reasons a step can stop; reset. -/

namespace Sys2Proof.Machine

/-- R19: the two values of `run_state`. -/
inductive RunState where
  | running
  | haltedOnFault
  deriving DecidableEq, Repr

/-- R185: there are exactly two fault kinds. No numeric code and no argument is recorded (R188, log 16). -/
inductive FaultKind where
  /-- R186: a memory access past the end of memory. -/
  | outOfRange
  /-- R187: a word that matches no pair, or one of the FENCE and SYSTEM groups. -/
  | illegalInstruction
  deriving DecidableEq, Repr

/-- `mem` (R22) as (address, byte) pairs: addresses strictly rising, no pair whose byte is what an unlisted address
reads as (`Memory.wf`), so that equal memories are equal lists. -/
abbrev Memory := List Host.Cell

/-- What an address with no pair reads as. Every MEM_INIT (R8) has a list of pairs, so this is a matter of
representation, but for `State.reset`, whose memory lists nothing. DESIGN CHOICE, unsafe there (log 7). -/
def memFill : Byte := 0

/-- The canonical form: strictly rising from `lo` on, no pair that holds `memFill`. -/
def Memory.wfFrom : Nat → Memory → Bool
  | _, [] => true
  | lo, (a, v) :: m => decide (lo ≤ a) && decide (v ≠ memFill) && Memory.wfFrom (a + 1) m

/-- The canonical form of a memory. -/
def Memory.wf (m : Memory) : Bool := Memory.wfFrom 0 m

/-- The whole architectural state (10_state.md, its table) and the launch parameters, which no step changes (log 5). -/
structure State where
  /-- `x[0..31]` (R10). Slot 0 holds 0 and is never written (R12, R13, log 19). -/
  regs : Vector Word 32
  /-- The program counter (R15). -/
  pc : Word
  /-- R19 -/
  runState : RunState
  /-- R20: none, OutOfRange or IllegalInstruction. -/
  fault : Option FaultKind
  /-- R22 -/
  mem : Memory
  /-- RAM_SIZE_WORDS and AUIPC_MODE (R6, R7, R23). -/
  cfg : Config
  deriving DecidableEq, Repr

/-- Why a step has no next state. A fault of the hardware is NOT here: its effect is a next state, the halted one
(R189, log 1). -/
inductive Fault where
  /-- Raised by `step` alone, in `halted-on-fault`: the step changes nothing and reports failure with the latched
  fault (R192; the spec's decision D10, log 2). Safe: no claim can rest on a step after a fault. -/
  | stepWhileHalted (latched : Option FaultKind)
  deriving DecidableEq, Repr

/-- Why an instruction is refused. -/
inductive Refusal where
  /-- Raised by `exec` alone, for an instruction without a meaning; no arm does (every instruction has one).
  Safe: the model stops. -/
  | notModelled (mnemonic : String)
  deriving DecidableEq, Repr

/-- The machine right after reset, that is after its construction (R205): registers 0 (R24), pc 0 (R25, the spec's
decision D7, log 4), running and no fault (R26). MEM_INIT and the parameters are arguments of a launch; here nothing is
listed in memory (log 7) and the parameters are `Config.atReset` (log 5, log 6). `State.launch` takes all of them. -/
def State.reset : State :=
  { regs := Vector.replicate 32 0
    pc := 0
    runState := .running
    fault := none
    mem := []
    cfg := Config.atReset }

end Sys2Proof.Machine
end

