-- ==== Sys2Proof/Machine/Ops.lean ====
section
/-! DEFINITION. The named operations over registers, pc and memory; taking a fault and the explicit reset, the only way out
of one; and the group handlers the meanings share (40_step_and_datapath.md R81). -/

namespace Sys2Proof.Machine

/-- What a step answers. -/
abbrev Result := Host.Outcome State Fault Refusal

/-! ### Registers and pc -/

/-- R12: register 0 reads 0, every other register what it holds. -/
def State.readReg (s : State) (r : RegIdx) : Word :=
  if r = 0#5 then 0#32 else s.regs[r.toNat]'r.isLt

/-- R13: a write of register 0 is discarded. -/
def State.writeReg (s : State) (r : RegIdx) (v : Word) : State :=
  if r = 0#5 then s else { s with regs := s.regs.set r.toNat v r.isLt }

/-- R16: `pc <- v`. -/
def State.setPc (s : State) (v : Word) : State := { s with pc := v }

/-- R82: `pc <- pc + 4` modulo `2^32`. -/
def State.advancePc (s : State) : State := s.setPc (sequential s.pc)

/-! ### Memory cells -/

/-- The byte at an address. -/
def Memory.read : Memory → Nat → Byte
  | [], _ => memFill
  | (b, v) :: m, a => if a = b then v else Memory.read m a

/-- Write one byte, keeping the canonical form (`Memory.wf`). -/
def Memory.write : Memory → Nat → Byte → Memory
  | [], a, v => if v = memFill then [] else [(a, v)]
  | (b, u) :: m, a, v =>
    if a < b then (if v = memFill then (b, u) :: m else (a, v) :: (b, u) :: m)
    else if a = b then (if v = memFill then m else (a, v) :: m)
    else (b, u) :: Memory.write m a v

/-- `mem[a]` (R22). -/
def State.byteAt (s : State) (a : Nat) : Byte := s.mem.read a

/-- R6: `MEM_SIZE = 4 * RAM_SIZE_WORDS`. -/
def State.memSize (s : State) : Nat := 4 * s.cfg.ramSizeWords

/-! ### The two memory primitives -/

/-- R35: the bounds check, `addr + n - 1 >= MEM_SIZE` in unbounded integers (D12, log 13). -/
def State.pastEnd (s : State) (addr : Word) (w : Width) : Bool :=
  decide (s.memSize ≤ addr.toNat + w.bytes - 1)

/-- R33: the value at `addr`, most-significant byte first, zero-extended; no bounds check. -/
def State.readBytes (s : State) (addr : Word) (w : Width) : Word :=
  let b (k : Nat) : Byte := s.byteAt (addr.toNat + k)
  match w with
  | .byte => (b 0).setWidth 32
  | .half => (b 0 ++ b 1).setWidth 32
  | .word => b 0 ++ b 1 ++ b 2 ++ b 3

/-- R33, R35: `MemRead(addr, n)`, none where it raises OutOfRange. No alignment requirement (R38, log 12). -/
def State.memRead (s : State) (addr : Word) (w : Width) : Option Word :=
  if s.pastEnd addr w then none else some (s.readBytes addr w)

/-- R34: the low bytes of `v` stored at `addr`, most-significant byte first; no bounds check. -/
def State.writeBytes (s : State) (addr : Word) (w : Width) (v : Word) : State :=
  let a := addr.toNat
  match w with
  | .byte => { s with mem := s.mem.write a (v.extractLsb' 0 8) }
  | .half => { s with mem := (s.mem.write a (v.extractLsb' 8 8)).write (a + 1) (v.extractLsb' 0 8) }
  | .word =>
    { s with
      mem := (((s.mem.write a (v.extractLsb' 24 8)).write (a + 1) (v.extractLsb' 16 8)).write
        (a + 2) (v.extractLsb' 8 8)).write (a + 3) (v.extractLsb' 0 8) }

/-- R34, R35: `MemWrite(addr, n, v)`, none where it raises OutOfRange; then no byte is written. -/
def State.memWrite (s : State) (addr : Word) (w : Width) (v : Word) : Option State :=
  if s.pastEnd addr w then none else some (s.writeBytes addr w v)

/-- R37: the instruction word of a step, `MemRead(pc, 4)`. -/
def State.fetchWord (s : State) : Option Word := s.memRead s.pc .word

/-! ### Faults and the explicit reset -/

/-- R189: taking a fault. `run_state` and `fault` change and nothing else: no register, not the pc, no byte of memory,
nothing saved, no vector (the spec's decision D9, log 3). -/
def State.takeFault (s : State) (k : FaultKind) : State :=
  { s with runState := .haltedOnFault, fault := some k }

/-- R207: the explicit reset, which the host applies; the only way out of `halted-on-fault` (R193). Registers 0, pc 0,
running, no fault; memory and the parameters are kept (the spec's decision D11, log 14). -/
def State.explicitReset (s : State) : State :=
  { s with regs := Vector.replicate 32 0, pc := 0, runState := .running, fault := none }

/-- A step that raises a fault answers the halted state (R189, log 1). -/
def raise (k : FaultKind) (s : State) : Result := .next (s.takeFault k)

/-! ### Shared handlers -/

/-- R82, R94: `x[rd] <- v`, `pc <- pc + 4`. -/
def finishWith (rd : RegIdx) (v : Word) (s : State) : Result := .next ((s.writeReg rd v).advancePc)

/-- R150: `x[rd] <- alu(f, x[rs1], b)` with an immediate second operand. -/
def aluImm (f : AluOp) (rd rs1 : RegIdx) (b : Word) (s : State) : Result :=
  finishWith rd (alu f (s.readReg rs1) b) s

/-- R150, R157 to R159: the shift-immediates; `shamt` is `imm[4:0]`. -/
def aluShift (f : AluOp) (rd rs1 : RegIdx) (shamt : BitVec 5) (s : State) : Result :=
  finishWith rd (alu f (s.readReg rs1) (shamt.setWidth 32)) s

/-- R165: `x[rd] <- alu(f, x[rs1], x[rs2])`. -/
def aluReg (f : AluOp) (rd rs1 rs2 : RegIdx) (s : State) : Result :=
  finishWith rd (alu f (s.readReg rs1) (s.readReg rs2)) s

/-- R120: the BRANCH group. No register is written, no target is checked. -/
def branch (c : BranchCond) (rs1 rs2 : RegIdx) (imm : Word) (s : State) : Result :=
  .next (s.setPc
    (if branchTaken c (s.readReg rs1) (s.readReg rs2) then pcRelative s.pc imm else sequential s.pc))

/-- R130: the LOAD group. The access is made, and can fault, also when `rd` is register 0. -/
def load (w : Width) (e : LoadExt) (rd rs1 : RegIdx) (imm : Word) (s : State) : Result :=
  match s.memRead (effectiveAddress (s.readReg rs1) imm) w with
  | none => raise .outOfRange s
  | some v => finishWith rd (extendLoad w e v) s

/-- R140: the STORE group. -/
def store (w : Width) (rs1 rs2 : RegIdx) (imm : Word) (s : State) : Result :=
  match s.memWrite (effectiveAddress (s.readReg rs1) imm) w (s.readReg rs2) with
  | none => raise .outOfRange s
  | some t => .next t.advancePc

/-- R110, R111: write the link value and go to `target`; both come from the state before the step (R83). -/
def jumpAndLink (rd : RegIdx) (target : Word) (s : State) : Result :=
  .next ((s.writeReg rd (sequential s.pc)).setPc target)

end Sys2Proof.Machine
end

