-- ==== Sys2Proof/Machine/Branches.lean ====
section
/-! DEFINITION. The six conditional branches (43_branches.md R120 to R126). -/

namespace Sys2Proof.Machine

/-- R121 -/
def execBeq (rs1 rs2 : RegIdx) (imm : Word) (s : State) : Result := branch .eq rs1 rs2 imm s

/-- R122 -/
def execBne (rs1 rs2 : RegIdx) (imm : Word) (s : State) : Result := branch .ne rs1 rs2 imm s

/-- R123 -/
def execBlt (rs1 rs2 : RegIdx) (imm : Word) (s : State) : Result := branch .lt rs1 rs2 imm s

/-- R124 -/
def execBge (rs1 rs2 : RegIdx) (imm : Word) (s : State) : Result := branch .ge rs1 rs2 imm s

/-- R125 -/
def execBltu (rs1 rs2 : RegIdx) (imm : Word) (s : State) : Result := branch .ltu rs1 rs2 imm s

/-- R126 -/
def execBgeu (rs1 rs2 : RegIdx) (imm : Word) (s : State) : Result := branch .geu rs1 rs2 imm s

end Sys2Proof.Machine
end

