-- ==== Sys2Proof/Machine/FenceSystem.lean ====
section
/-! DEFINITION. The FENCE and SYSTEM groups (48_fence_system.md R180, R181): each raises IllegalInstruction. -/

namespace Sys2Proof.Machine

/-- R180: every word of the group faults; no register, memory byte or pc changes (R189). -/
def execFence (s : State) : Result := raise .illegalInstruction s

/-- R181: ECALL, EBREAK, the CSR instructions and every other word of the group fault alike. -/
def execSystem (s : State) : Result := raise .illegalInstruction s

end Sys2Proof.Machine
end

