-- ==== Sys2Proof/Machine/Jumps.lean ====
section
/-! DEFINITION. JAL and JALR (42_jumps.md R110 to R112). -/

namespace Sys2Proof.Machine

/-- R110 -/
def execJal (rd : RegIdx) (imm : Word) (s : State) : Result := jumpAndLink rd (pcRelative s.pc imm) s

/-- R111: the target uses `x[rs1]` from before the step, also when `rd = rs1`. -/
def execJalr (rd rs1 : RegIdx) (imm : Word) (s : State) : Result :=
  jumpAndLink rd (jalrTarget (s.readReg rs1) imm) s

end Sys2Proof.Machine
end

