-- ==== Sys2Proof/Machine/Loads.lean ====
section
/-! DEFINITION. The five loads (44_loads.md R130 to R135). -/

namespace Sys2Proof.Machine

/-- R131 -/
def execLb (rd rs1 : RegIdx) (imm : Word) (s : State) : Result := load .byte .signed rd rs1 imm s

/-- R132 -/
def execLh (rd rs1 : RegIdx) (imm : Word) (s : State) : Result := load .half .signed rd rs1 imm s

/-- R133: the word is written unmodified, whatever the extension. -/
def execLw (rd rs1 : RegIdx) (imm : Word) (s : State) : Result := load .word .unsigned rd rs1 imm s

/-- R134 -/
def execLbu (rd rs1 : RegIdx) (imm : Word) (s : State) : Result := load .byte .unsigned rd rs1 imm s

/-- R135 -/
def execLhu (rd rs1 : RegIdx) (imm : Word) (s : State) : Result := load .half .unsigned rd rs1 imm s

end Sys2Proof.Machine
end

