-- ==== Sys2Proof/Machine/OpImm.lean ====
section
/-! DEFINITION. The nine register-immediate ALU instructions (46_op_imm.md R150 to R159). -/

namespace Sys2Proof.Machine

/-- R151 -/
def execAddi (rd rs1 : RegIdx) (imm : Word) (s : State) : Result := aluImm .add rd rs1 imm s

/-- R152 -/
def execSlti (rd rs1 : RegIdx) (imm : Word) (s : State) : Result := aluImm .slt rd rs1 imm s

/-- R153 -/
def execSltiu (rd rs1 : RegIdx) (imm : Word) (s : State) : Result := aluImm .sltu rd rs1 imm s

/-- R154 -/
def execXori (rd rs1 : RegIdx) (imm : Word) (s : State) : Result := aluImm .xor rd rs1 imm s

/-- R155 -/
def execOri (rd rs1 : RegIdx) (imm : Word) (s : State) : Result := aluImm .or rd rs1 imm s

/-- R156 -/
def execAndi (rd rs1 : RegIdx) (imm : Word) (s : State) : Result := aluImm .and rd rs1 imm s

/-- R157 -/
def execSlli (rd rs1 : RegIdx) (shamt : BitVec 5) (s : State) : Result := aluShift .sll rd rs1 shamt s

/-- R158 -/
def execSrli (rd rs1 : RegIdx) (shamt : BitVec 5) (s : State) : Result := aluShift .srl rd rs1 shamt s

/-- R159 -/
def execSrai (rd rs1 : RegIdx) (shamt : BitVec 5) (s : State) : Result := aluShift .sra rd rs1 shamt s

end Sys2Proof.Machine
end

