-- ==== Sys2Proof/Machine/OpReg.lean ====
section
/-! DEFINITION. The ten register-register ALU instructions (47_op.md R165 to R175). -/

namespace Sys2Proof.Machine

/-- R166 -/
def execAdd (rd rs1 rs2 : RegIdx) (s : State) : Result := aluReg .add rd rs1 rs2 s

/-- R167 -/
def execSub (rd rs1 rs2 : RegIdx) (s : State) : Result := aluReg .sub rd rs1 rs2 s

/-- R168 -/
def execSll (rd rs1 rs2 : RegIdx) (s : State) : Result := aluReg .sll rd rs1 rs2 s

/-- R169 -/
def execSlt (rd rs1 rs2 : RegIdx) (s : State) : Result := aluReg .slt rd rs1 rs2 s

/-- R170 -/
def execSltu (rd rs1 rs2 : RegIdx) (s : State) : Result := aluReg .sltu rd rs1 rs2 s

/-- R171 -/
def execXor (rd rs1 rs2 : RegIdx) (s : State) : Result := aluReg .xor rd rs1 rs2 s

/-- R172 -/
def execSrl (rd rs1 rs2 : RegIdx) (s : State) : Result := aluReg .srl rd rs1 rs2 s

/-- R173 -/
def execSra (rd rs1 rs2 : RegIdx) (s : State) : Result := aluReg .sra rd rs1 rs2 s

/-- R174 -/
def execOr (rd rs1 rs2 : RegIdx) (s : State) : Result := aluReg .or rd rs1 rs2 s

/-- R175 -/
def execAnd (rd rs1 rs2 : RegIdx) (s : State) : Result := aluReg .and rd rs1 rs2 s

end Sys2Proof.Machine
end

