-- ==== Sys2Proof/Machine/Stores.lean ====
section
/-! DEFINITION. The three stores (45_stores.md R140 to R143). -/

namespace Sys2Proof.Machine

/-- R141 -/
def execSb (rs1 rs2 : RegIdx) (imm : Word) (s : State) : Result := store .byte rs1 rs2 imm s

/-- R142 -/
def execSh (rs1 rs2 : RegIdx) (imm : Word) (s : State) : Result := store .half rs1 rs2 imm s

/-- R143 -/
def execSw (rs1 rs2 : RegIdx) (imm : Word) (s : State) : Result := store .word rs1 rs2 imm s

end Sys2Proof.Machine
end

