-- ==== Sys2Proof/Machine/UpperImmediate.lean ====
section
/-! DEFINITION. LUI and AUIPC (41_upper_immediate.md R100 to R102). -/

namespace Sys2Proof.Machine

/-- R100 -/
def execLui (rd : RegIdx) (imm : Word) (s : State) : Result := finishWith rd imm s

/-- R102: what AUIPC writes, and where it goes, in `legacy_source` mode. -/
def auipcLegacyTarget (pc imm : Word) : Word := if imm = 0#32 then sequential pc else pcRelative pc imm

/-- R101 in `canonical` mode, R102 in `legacy_source` mode (log 6). -/
def execAuipc (rd : RegIdx) (imm : Word) (s : State) : Result :=
  match s.cfg.auipcMode with
  | .canonical => finishWith rd (pcRelative s.pc imm) s
  | .legacySource =>
    .next ((s.writeReg rd (auipcLegacyTarget s.pc imm)).setPc (auipcLegacyTarget s.pc imm))

end Sys2Proof.Machine
end

