-- ==== Sys2Proof/Machine/Launch.lean ====
section
/-! DEFINITION. What the host can do to the machine besides calling `step`: launch it (70_reset_and_hazards.md R209, R210)
and inspect it (60_exceptions.md R200). The explicit reset stands in Ops.lean beside `State.takeFault`. -/

namespace Sys2Proof.Machine

/-- The memory whose bytes at `base`, `base + 1`, … for `n` addresses are those of `image`. -/
def Memory.ofImage (image : Nat → Byte) : Nat → Nat → Memory
  | _, 0 => []
  | base, n + 1 =>
    if image base = memFill then Memory.ofImage image (base + 1) n
    else (base, image base) :: Memory.ofImage image (base + 1) n

/-- R209: the launch state for parameters, MEM_INIT (R8), initial `x[1..31]` and initial pc. `x[0]` is 0 always, running,
no fault. Every argument is the host's choice (the spec's decision D17). -/
def State.launch (cfg : Config) (memInit : Nat → Byte) (x : RegIdx → Word) (pc : Word) : State :=
  { regs := Vector.ofFn fun i => if i.val = 0 then 0#32 else x (BitVec.ofNat 5 i.val)
    pc := pc
    runState := .running
    fault := none
    mem := Memory.ofImage memInit 0 (4 * cfg.ramSizeWords)
    cfg := cfg }

/-- R200: the view of one register. -/
def State.inspectReg (s : State) (r : RegIdx) : Word := s.readReg r

/-- R200: the full register array. -/
def State.inspectRegs (s : State) : Vector Word 32 := Vector.ofFn fun i => s.readReg (BitVec.ofNat 5 i.val)

/-- R200: the program counter. -/
def State.inspectPc (s : State) : Word := s.pc

/-- R200: a memory window of `(start, len)`. Past the end of memory the spec states nothing (N8, U14): none, not a value
(log 15). -/
def State.inspectMem (s : State) (start len : Nat) : Option (List Byte) :=
  if start + len ≤ s.memSize then some ((List.range len).map fun k => s.byteAt (start + k)) else none

end Sys2Proof.Machine
end

