-- ==== Sys2Proof/Machine/Step.lean ====
section
/-! DEFINITION. The step (40_step_and_datapath.md R80), the only transition of the machine. -/

namespace Sys2Proof.Machine

/-- R80, R191: fetch (OutOfRange when the word cannot be read), decode (IllegalInstruction when it is rejected), run the
handler. A halted machine has no transition and reports its latched fault (R192, log 2). -/
def step (s : State) : Host.Outcome State Fault Refusal :=
  match s.runState with
  | .haltedOnFault => .fault (.stepWhileHalted s.fault)
  | .running =>
    match s.fetchWord with
    | none => raise .outOfRange s
    | some w =>
      match decode w with
      | .rejected _ => raise .illegalInstruction s
      | .ok i => exec i s

/-- The host's load of one instruction word (R210) where the next step fetches: at the pc, most-significant byte first.
`w` is numbered as the opcode table numbers it and the bits above `nbits` are 0. Where the pc is past the end of memory there
is nowhere to store it. How a program comes to run from reset: log 17. -/
def State.withFetchWord (s : State) (nbits w : Nat) : State :=
  (s.memWrite s.pc .word (BitVec.ofNat 32 (w % 2 ^ nbits))).getD s

end Sys2Proof.Machine
end

