-- ==== Sys2Proof/Machine/Datapath.lean ====
section
/-! DEFINITION. The block as hardware: register-file ports (10_state.md R28), memory port (20_memory.md R44), execution unit
(40_step_and_datapath.md R95) and the routing table (R94). The signal names are the spec's own and carry no semantics (D14,
log 20). `datapathStep` wires the units as R80 orders them; `step` is the definition of the machine, and the two are the
subject of a statement. -/

namespace Sys2Proof.Machine

/-- R44: a request at the memory port. No request is `m_valid = 0`. -/
structure MemRequest where
  write : Bool
  addr : Word
  size : Width
  wdata : Word
  deriving DecidableEq, Repr

/-- R44: the port's response. `rdata` is none where the rule says it is not used (a write, a failed access). -/
structure MemResponse where
  rdata : Option Word
  oor : Bool
  deriving DecidableEq, Repr

/-- R44: the memory port; the state after the access. -/
def State.memPort (s : State) (q : MemRequest) : MemResponse × State :=
  if q.write then
    match s.memWrite q.addr q.size q.wdata with
    | none => (⟨none, true⟩, s)
    | some t => (⟨none, false⟩, t)
  else
    match s.memRead q.addr q.size with
    | none => (⟨none, true⟩, s)
    | some v => (⟨some v, false⟩, s)

/-- R28: the write port; `w_en = 1` is a value on `wData`. -/
def State.regWritePort (s : State) (wAddr : RegIdx) (wData : Option Word) : State :=
  match wData with
  | none => s
  | some v => s.writeReg wAddr v

/-- The ALU function an operation selects (R84), none for an operation outside OP-IMM and OP. -/
def aluSelect : Op → Option AluOp
  | .addi | .add => some .add
  | .sub => some .sub
  | .slli | .sll => some .sll
  | .slti | .slt => some .slt
  | .sltiu | .sltu => some .sltu
  | .xori | .xor => some .xor
  | .srli | .srl => some .srl
  | .srai | .sra => some .sra
  | .ori | .or => some .or
  | .andi | .and => some .and
  | _ => none

/-- The comparator's condition (R89). -/
def branchSelect : Op → Option BranchCond
  | .beq => some .eq
  | .bne => some .ne
  | .blt => some .lt
  | .bge => some .ge
  | .bltu => some .ltu
  | .bgeu => some .geu
  | _ => none

/-- The width of an operation's data access and the extension of a load (R32, R92). -/
def accessSelect : Op → Option (Width × LoadExt)
  | .lb => some (.byte, .signed)
  | .lh => some (.half, .signed)
  | .lw | .sw => some (.word, .unsigned)
  | .lbu | .sb => some (.byte, .unsigned)
  | .lhu | .sh => some (.half, .unsigned)
  | _ => none

/-- R95: what the execution unit asks of the memory port, for LOAD and STORE alone. -/
def memRequest (d : DecoderOutputs) (a b : Word) : Option MemRequest :=
  match d.op.bind accessSelect, d.imm with
  | some (w, _), some imm => some ⟨decide (d.group = some .store), effectiveAddress a imm, w, b⟩
  | _, _ => none

/-- R95: the execution unit's outputs. `wData` is none for `w_en = 0`; `w_addr` is `rd`. -/
structure ExecOutputs where
  wData : Option Word
  nextPc : Word
  faultOut : Option FaultKind
  deriving DecidableEq, Repr

/-- R95: the outputs of a unit that faults: nothing is written and the pc is not loaded. -/
def ExecOutputs.faulted (pc : Word) (k : FaultKind) : ExecOutputs := ⟨none, pc, some k⟩

/-- R94: the value written to `rd` and the next pc of an operation that does not fault. -/
def route (mode : AuipcMode) (o : Op) (imm pc a b : Word) (rdata : Option Word) : Option Word × Word :=
  match o with
  | .lui => (some imm, sequential pc)
  | .auipc =>
    match mode with
    | .canonical => (some (pcRelative pc imm), sequential pc)
    | .legacySource =>
      let t := if imm = 0#32 then sequential pc else pcRelative pc imm
      (some t, t)
  | .jal => (some (sequential pc), pcRelative pc imm)
  | .jalr => (some (sequential pc), jalrTarget a imm)
  | _ =>
    match branchSelect o, accessSelect o, aluSelect o with
    | some c, _, _ => (none, if branchTaken c a b then pcRelative pc imm else sequential pc)
    | none, some (w, e), _ => (rdata.map (extendLoad w e), sequential pc)
    | none, none, some f => (some (alu f a b), sequential pc)
    | none, none, none => (none, pc)

/-- R95: the execution unit, with no state of its own. `b` of an OP-IMM operation is its immediate (R84). -/
def execUnit (mode : AuipcMode) (d : DecoderOutputs) (pc a b : Word) (resp : Option MemResponse) : ExecOutputs :=
  match d.illegal, d.op, resp with
  | true, _, _ | _, none, _ => .faulted pc .illegalInstruction
  | false, some _, some ⟨_, true⟩ => .faulted pc .outOfRange
  | false, some o, resp =>
    let imm := d.imm.getD 0#32
    let operandB := if d.group = some .opImm then imm else b
    let (v, next) := route mode o imm pc a operandB (resp.bind (·.rdata))
    ⟨v, next, none⟩

/-- R80: fetch, decode, register read, execute with at most one data access, commit. -/
def datapathStep (s : State) : Result :=
  match s.runState with
  | .haltedOnFault => .fault (.stepWhileHalted s.fault)
  | .running =>
    match (s.memPort ⟨false, s.pc, .word, 0#32⟩).1.rdata with
    | none => .next (s.takeFault .outOfRange)
    | some instr =>
      let d := decoderOutputs instr
      let a := s.readReg d.rs1
      let b := s.readReg d.rs2
      let access := (memRequest d a b).map s.memPort
      let out := execUnit s.cfg.auipcMode d s.pc a b (access.map (·.1))
      match out.faultOut with
      | some k => .next (s.takeFault k)
      | none => .next (((access.elim s (·.2)).regWritePort d.rd out.wData).setPc out.nextPc)

end Sys2Proof.Machine
end

