-- ==== Sys2Proof/Safety.lean ====
section
/-! DEFINITION. What claims are stated in: the invariant of the state, what an instruction may change, runs, and the
convention for the end of a run (70_reset_and_hazards.md R215). -/

namespace Sys2Proof.Machine

/-- The invariant every step keeps: the launch parameters are in the range R6 admits, memory is canonical and holds nothing
at or past MEM_SIZE (R22), the stored slot of `x[0]` is 0 (R13), and `fault` is none exactly while running (R20). -/
structure State.Inv (s : State) : Prop where
  config : s.cfg.valid = true
  memory : s.mem.wf = true
  bounded : ∀ a : Nat, s.memSize ≤ a → s.byteAt a = memFill
  zero : s.regs[0] = 0#32
  latch : s.fault = none ↔ s.runState = .running

/-- The parameters and the run state after are those before (R23, R19). -/
structure State.SameControl (s t : State) : Prop where
  cfg : t.cfg = s.cfg
  runState : t.runState = s.runState
  fault : t.fault = s.fault

/-- Every byte of memory reads as before. -/
def State.SameMemory (s t : State) : Prop := ∀ a : Nat, t.byteAt a = s.byteAt a

/-- Every register reads as before. -/
def State.SameRegs (s t : State) : Prop := ∀ r : RegIdx, t.readReg r = s.readReg r

/-- Register `rd` takes `v`, unless it is register 0, which still reads 0 (R12, R13); every other register reads as before. -/
structure State.WroteReg (s t : State) (rd : RegIdx) (v : Word) : Prop where
  dest : rd ≠ 0#5 → t.readReg rd = v
  zero : t.readReg 0#5 = 0#32
  others : ∀ r : RegIdx, r ≠ rd → t.readReg r = s.readReg r

/-- A register result and nothing else: `rd` takes `v`, the pc becomes `pc'`, all of memory and the control state stay. -/
structure State.RegResult (s t : State) (rd : RegIdx) (v pc' : Word) : Prop where
  regs : s.WroteReg t rd v
  pc : t.pc = pc'
  memory : s.SameMemory t
  control : s.SameControl t

/-- Only the pc moves, to `pc'`. -/
structure State.OnlyPc (s t : State) (pc' : Word) : Prop where
  regs : s.SameRegs t
  pc : t.pc = pc'
  memory : s.SameMemory t
  control : s.SameControl t

/-- A fault was taken (R189): the run state and the latch, and nothing else. -/
structure State.Halted (s t : State) (k : FaultKind) : Prop where
  runState : t.runState = .haltedOnFault
  fault : t.fault = some k
  regs : s.SameRegs t
  pc : t.pc = s.pc
  memory : s.SameMemory t
  cfg : t.cfg = s.cfg

/-- The register an instruction names as destination; BRANCH, STORE, FENCE and SYSTEM name none (R14). -/
def destOf : Instr → Option RegIdx
  | .lui rd _ | .auipc rd _ | .jal rd _ | .jalr rd _ _ => some rd
  | .lb rd _ _ | .lh rd _ _ | .lw rd _ _ | .lbu rd _ _ | .lhu rd _ _ => some rd
  | .addi rd _ _ | .slti rd _ _ | .sltiu rd _ _ | .xori rd _ _ | .ori rd _ _ | .andi rd _ _ => some rd
  | .slli rd _ _ | .srli rd _ _ | .srai rd _ _ => some rd
  | .add rd _ _ | .sub rd _ _ | .sll rd _ _ | .slt rd _ _ | .sltu rd _ _ => some rd
  | .xor rd _ _ | .srl rd _ _ | .sra rd _ _ | .or rd _ _ | .and rd _ _ => some rd
  | .beq _ _ _ | .bne _ _ _ | .blt _ _ _ | .bge _ _ _ | .bltu _ _ _ | .bgeu _ _ _ => none
  | .sb _ _ _ | .sh _ _ _ | .sw _ _ _ | .fence | .system => none

/-- The registers an instruction reads: those it names as `rs1` and `rs2` (R14). -/
def sourcesOf : Instr → List RegIdx
  | .lui _ _ | .auipc _ _ | .jal _ _ | .fence | .system => []
  | .jalr _ rs1 _ => [rs1]
  | .lb _ rs1 _ | .lh _ rs1 _ | .lw _ rs1 _ | .lbu _ rs1 _ | .lhu _ rs1 _ => [rs1]
  | .addi _ rs1 _ | .slti _ rs1 _ | .sltiu _ rs1 _ | .xori _ rs1 _ | .ori _ rs1 _ | .andi _ rs1 _ => [rs1]
  | .slli _ rs1 _ | .srli _ rs1 _ | .srai _ rs1 _ => [rs1]
  | .beq rs1 rs2 _ | .bne rs1 rs2 _ | .blt rs1 rs2 _ | .bge rs1 rs2 _ | .bltu rs1 rs2 _ | .bgeu rs1 rs2 _ => [rs1, rs2]
  | .sb rs1 rs2 _ | .sh rs1 rs2 _ | .sw rs1 rs2 _ => [rs1, rs2]
  | .add _ rs1 rs2 | .sub _ rs1 rs2 | .sll _ rs1 rs2 | .slt _ rs1 rs2 | .sltu _ rs1 rs2 => [rs1, rs2]
  | .xor _ rs1 rs2 | .srl _ rs1 rs2 | .sra _ rs1 rs2 | .or _ rs1 rs2 | .and _ rs1 rs2 => [rs1, rs2]

/-- The immediate of an instruction, the 32-bit value that leaves the decoder (R59); none for the formats without one. The
`shamt` of the shift-immediates is a 5-bit field of its own (R58). -/
def immediateOf : Instr → Option Word
  | .lui _ imm | .auipc _ imm | .jal _ imm => some imm
  | .jalr _ _ imm => some imm
  | .beq _ _ imm | .bne _ _ imm | .blt _ _ imm | .bge _ _ imm | .bltu _ _ imm | .bgeu _ _ imm => some imm
  | .lb _ _ imm | .lh _ _ imm | .lw _ _ imm | .lbu _ _ imm | .lhu _ _ imm => some imm
  | .sb _ _ imm | .sh _ _ imm | .sw _ _ imm => some imm
  | .addi _ _ imm | .slti _ _ imm | .sltiu _ _ imm | .xori _ _ imm | .ori _ _ imm | .andi _ _ imm => some imm
  | .slli _ _ _ | .srli _ _ _ | .srai _ _ _ | .fence | .system => none
  | .add _ _ _ | .sub _ _ _ | .sll _ _ _ | .slt _ _ _ | .sltu _ _ _ => none
  | .xor _ _ _ | .srl _ _ _ | .sra _ _ _ | .or _ _ _ | .and _ _ _ => none

/-- The data access of an instruction at a state: the effective address its handler computes (R130, R140) and the width;
none for an instruction that makes none. -/
def dataAccess (i : Instr) (s : State) : Option (Word × Width) :=
  match i with
  | .lb _ rs1 imm | .lbu _ rs1 imm => some (effectiveAddress (s.readReg rs1) imm, .byte)
  | .lh _ rs1 imm | .lhu _ rs1 imm => some (effectiveAddress (s.readReg rs1) imm, .half)
  | .lw _ rs1 imm => some (effectiveAddress (s.readReg rs1) imm, .word)
  | .sb rs1 _ imm => some (effectiveAddress (s.readReg rs1) imm, .byte)
  | .sh rs1 _ imm => some (effectiveAddress (s.readReg rs1) imm, .half)
  | .sw rs1 _ imm => some (effectiveAddress (s.readReg rs1) imm, .word)
  | .lui _ _ | .auipc _ _ | .jal _ _ | .jalr _ _ _ | .fence | .system => none
  | .beq _ _ _ | .bne _ _ _ | .blt _ _ _ | .bge _ _ _ | .bltu _ _ _ | .bgeu _ _ _ => none
  | .addi _ _ _ | .slti _ _ _ | .sltiu _ _ _ | .xori _ _ _ | .ori _ _ _ | .andi _ _ _ => none
  | .slli _ _ _ | .srli _ _ _ | .srai _ _ _ => none
  | .add _ _ _ | .sub _ _ _ | .sll _ _ _ | .slt _ _ _ | .sltu _ _ _ => none
  | .xor _ _ _ | .srl _ _ _ | .sra _ _ _ | .or _ _ _ | .and _ _ _ => none

/-- Whether the instruction is one of SB, SH, SW, the only ones that write memory (R22). -/
def isStore : Instr → Bool
  | .sb _ _ _ | .sh _ _ _ | .sw _ _ _ => true
  | _ => false

/-- Whether the instruction is of the FENCE or SYSTEM group (R71). -/
def isFenceOrSystem : Instr → Bool
  | .fence | .system => true
  | _ => false

/-- Whether the instruction is a BRANCH whose condition holds at the state (R89, R120). -/
def takesBranch (i : Instr) (s : State) : Bool :=
  match i with
  | .beq rs1 rs2 _ => branchTaken .eq (s.readReg rs1) (s.readReg rs2)
  | .bne rs1 rs2 _ => branchTaken .ne (s.readReg rs1) (s.readReg rs2)
  | .blt rs1 rs2 _ => branchTaken .lt (s.readReg rs1) (s.readReg rs2)
  | .bge rs1 rs2 _ => branchTaken .ge (s.readReg rs1) (s.readReg rs2)
  | .bltu rs1 rs2 _ => branchTaken .ltu (s.readReg rs1) (s.readReg rs2)
  | .bgeu rs1 rs2 _ => branchTaken .geu (s.readReg rs1) (s.readReg rs2)
  | .lui _ _ | .auipc _ _ | .jal _ _ | .jalr _ _ _ | .fence | .system => false
  | .lb _ _ _ | .lh _ _ _ | .lw _ _ _ | .lbu _ _ _ | .lhu _ _ _ | .sb _ _ _ | .sh _ _ _ | .sw _ _ _ => false
  | .addi _ _ _ | .slti _ _ _ | .sltiu _ _ _ | .xori _ _ _ | .ori _ _ _ | .andi _ _ _ => false
  | .slli _ _ _ | .srli _ _ _ | .srai _ _ _ => false
  | .add _ _ _ | .sub _ _ _ | .sll _ _ _ | .slt _ _ _ | .sltu _ _ _ => false
  | .xor _ _ _ | .srl _ _ _ | .sra _ _ _ | .or _ _ _ | .and _ _ _ => false

/-- Whether the instruction redirects the pc at the state (R16): JAL, JALR, a taken BRANCH, AUIPC in `legacy_source` mode. -/
def redirectsPc (i : Instr) (s : State) : Bool :=
  takesBranch i s ||
  match i with
  | .jal _ _ | .jalr _ _ _ => true
  | .auipc _ _ => decide (s.cfg.auipcMode = .legacySource)
  | _ => false

/-- The bits of an instruction's word that a mask compares or a field uses: all 32 but for the ignored ones (R73, R180,
R181). -/
def usedBits : Instr → Word
  | .jalr _ _ _ => 0xFFFF8FFF#32
  | .fence | .system => 0x0000007F#32
  | _ => 0xFFFFFFFF#32

/-- A safe state: the machine is running. A halted machine is an error end, never a successful one (R215). -/
def State.Safe (s : State) : Prop := s.runState = .running

/-- States a run from `s` reaches (R215: a run is a sequence of steps). -/
inductive Reaches (s : State) : State → Prop where
  | start : Reaches s s
  | next {t u : State} : Reaches s t → step t = .next u → Reaches s u

/-- The spec's convention for a program-determined end (R215, D19): the instruction at the pc is a JAL to itself. The
hardware does not detect it. -/
def State.atSelfJump (s : State) : Bool :=
  match s.fetchWord with
  | none => false
  | some w =>
    match decode w with
    | .ok (.jal _ imm) => decide (imm = 0#32)
    | _ => false

end Sys2Proof.Machine
end

