-- ==== Sys2Proof/Certificates/Slice0/Obligations.lean ====
section
/-! DEFINITION. The statements for the provers, each of a rule of spec/ or of sections named in OBLIGATIONS.json. -/

open Sys2Proof Sys2Proof.Machine

/-! ### Reset, launch, explicit reset -/

/-- 10_state.md R24: every general register is 0 after reset. -/
def Obligations.EveryRegisterIsZeroAfterReset : Prop :=
  (∀ r : RegIdx, State.reset.readReg r = 0#32) ∧ ∀ (i : Nat) (h : i < 32), State.reset.regs[i] = 0#32

/-- 10_state.md section 8: pc 0 is the spec's decision D7 (log 4), running and no fault are its derivation R26. -/
def Obligations.ResetRunsFromAddressZero : Prop :=
  State.reset.pc = 0#32 ∧ State.reset.runState = .running ∧ State.reset.fault = none

/-- The invariant `State.Inv` holds after reset (the parameters and the memory there are the model's choice: log 5, log 7). -/
def Obligations.ResetMeetsTheStateInvariant : Prop := State.reset.Inv

/-- R209, R27, the spec's decisions D8 and D17: a launch takes any MEM_INIT, any `x[1..31]`, any pc and any parameters, with
`x[0] = 0`, running, no fault; with parameters in R6's range it meets the invariant. -/
def Obligations.LaunchTakesEveryMemoryRegistersAndPc : Prop :=
  ∀ (c : Config) (memInit : Nat → Byte) (x : RegIdx → Word) (pc : Word),
    (∀ a < 4 * c.ramSizeWords, (State.launch c memInit x pc).byteAt a = memInit a) ∧
    (∀ r : RegIdx, r ≠ 0#5 → (State.launch c memInit x pc).readReg r = x r) ∧
    (State.launch c memInit x pc).readReg 0#5 = 0#32 ∧
    (State.launch c memInit x pc).pc = pc ∧
    (State.launch c memInit x pc).cfg = c ∧
    (State.launch c memInit x pc).runState = .running ∧
    (State.launch c memInit x pc).fault = none ∧
    (c.valid = true → (State.launch c memInit x pc).Inv)

/-- R207, the spec's decision D11: the explicit reset returns registers, pc, run state and latch to reset, keeps memory and
parameters, and keeps the invariant; the machine steps again. -/
def Obligations.ExplicitResetKeepsMemoryAndRuns : Prop :=
  ∀ s : State,
    (∀ r : RegIdx, s.explicitReset.readReg r = 0#32) ∧ s.explicitReset.pc = 0#32 ∧
    s.explicitReset.runState = .running ∧ s.explicitReset.fault = none ∧
    s.SameMemory s.explicitReset ∧ s.explicitReset.cfg = s.cfg ∧
    (s.Inv → s.explicitReset.Inv) ∧ ∃ t, step s.explicitReset = .next t

/-! ### The decoder and the encoder -/

/-- R74: decoding an encoded instruction recovers the same operation, fields and immediate, over the full legal range of each
field. -/
def Obligations.DecodeOfEncodeIsTheInstruction : Prop :=
  ∀ i : Instr, i.wellFormed = true → decode (encode i) = .ok i

/-- R73, R68, R180, R181: what decodes is well formed, and re-encoding gives the word back with the ignored bits (JALR 14:12,
FENCE and SYSTEM 31:7) as 0; those zeros are the encoder's choice (log 18). -/
def Obligations.DecodedWordReencodesToItself : Prop :=
  ∀ (w : Word) (i : Instr), decode w = .ok i → i.wellFormed = true ∧ encode i = w &&& usedBits i

/-- R69: no word satisfies two of the 39 pairs. -/
def Obligations.OpcodeTableEntriesAreDisjoint : Prop :=
  opcodeTable.length = 39 ∧
  ∀ (w : Word) (r q : Row), r ∈ opcodeTable → q ∈ opcodeTable → r.accepts w = true → q.accepts w = true → r = q

/-- The 39 (operation, mask, match) triples as R68 and R71, R63, R64, R65, R66 and R67 print them, written out again here so
that a statement compares the model's table with them. The funct3 and funct7 values are the spec's, from general knowledge
(log 8); JALR compares its opcode alone (D5, log 10); the shifts and OP compare all seven upper bits (D4, log 11). -/
def Sys2Proof.specOpcodeTriples : List (Op × Word × Word) :=
  [(Op.lui, 0x0000007F#32, 0x00000037#32), (.auipc, 0x0000007F#32, 0x00000017#32), (.jal, 0x0000007F#32, 0x0000006F#32),
   (.jalr, 0x0000007F#32, 0x00000067#32), (.fence, 0x0000007F#32, 0x0000000F#32), (.system, 0x0000007F#32, 0x00000073#32)] ++
  [(Op.beq, 0x0000707F#32, 0x00000063#32), (.bne, 0x0000707F#32, 0x00001063#32), (.blt, 0x0000707F#32, 0x00004063#32),
   (.bge, 0x0000707F#32, 0x00005063#32), (.bltu, 0x0000707F#32, 0x00006063#32), (.bgeu, 0x0000707F#32, 0x00007063#32)] ++
  [(Op.lb, 0x0000707F#32, 0x00000003#32), (.lh, 0x0000707F#32, 0x00001003#32), (.lw, 0x0000707F#32, 0x00002003#32),
   (.lbu, 0x0000707F#32, 0x00004003#32), (.lhu, 0x0000707F#32, 0x00005003#32)] ++
  [(Op.sb, 0x0000707F#32, 0x00000023#32), (.sh, 0x0000707F#32, 0x00001023#32), (.sw, 0x0000707F#32, 0x00002023#32)] ++
  [(Op.addi, 0x0000707F#32, 0x00000013#32), (.slti, 0x0000707F#32, 0x00002013#32), (.sltiu, 0x0000707F#32, 0x00003013#32),
   (.xori, 0x0000707F#32, 0x00004013#32), (.ori, 0x0000707F#32, 0x00006013#32), (.andi, 0x0000707F#32, 0x00007013#32),
   (.slli, 0xFE00707F#32, 0x00001013#32), (.srli, 0xFE00707F#32, 0x00005013#32), (.srai, 0xFE00707F#32, 0x40005013#32)] ++
  [(Op.add, 0xFE00707F#32, 0x00000033#32), (.sub, 0xFE00707F#32, 0x40000033#32), (.sll, 0xFE00707F#32, 0x00001033#32),
   (.slt, 0xFE00707F#32, 0x00002033#32), (.sltu, 0xFE00707F#32, 0x00003033#32), (.xor, 0xFE00707F#32, 0x00004033#32),
   (.srl, 0xFE00707F#32, 0x00005033#32), (.sra, 0xFE00707F#32, 0x40005033#32), (.or, 0xFE00707F#32, 0x00006033#32),
   (.and, 0xFE00707F#32, 0x00007033#32)]

/-- R61, with the pairs of R63 to R68 and R71 as literals (`specOpcodeTriples`: log 8, log 10, log 11): the model's table holds
exactly those 39 triples, and a word that satisfies a pair decodes to that pair's instruction, with the register numbers,
`shamt` and immediate its format places at the bits of R51 to R58 (the B and J bit order: log 21). -/
def Obligations.AcceptedWordDecodesToItsRow : Prop :=
  (∀ r : Row, r ∈ opcodeTable ↔ (r.op, r.mask, r.pattern) ∈ specOpcodeTriples) ∧
  ∀ (w mask pattern : Word) (o : Op), (o, mask, pattern) ∈ specOpcodeTriples → w &&& mask = pattern →
    ∃ i : Instr, decode w = .ok i ∧ i.op = o ∧
      (∀ rd, destOf i = some rd → rd = w.extractLsb' 7 5) ∧
      (∀ a b, sourcesOf i = [a, b] → a = w.extractLsb' 15 5 ∧ b = w.extractLsb' 20 5) ∧
      (∀ a, sourcesOf i = [a] → a = w.extractLsb' 15 5) ∧
      (∀ rd rs1 shamt, i = .slli rd rs1 shamt ∨ i = .srli rd rs1 shamt ∨ i = .srai rd rs1 shamt → shamt = w.extractLsb' 20 5) ∧
      (o ∈ ([.lui, .auipc] : List _) → immediateOf i = some (w &&& 0xFFFFF000#32)) ∧
      (o = .jal → immediateOf i = some ((w.extractLsb' 31 1 ++ w.extractLsb' 12 8 ++ w.extractLsb' 20 1 ++
        w.extractLsb' 21 10 ++ 0#1 : BitVec 21).signExtend 32)) ∧
      (o ∈ ([.jalr, .lb, .lh, .lw, .lbu, .lhu, .addi, .slti, .sltiu, .xori, .ori, .andi] : List _) →
        immediateOf i = some ((w.extractLsb' 20 12).signExtend 32)) ∧
      (o ∈ ([.beq, .bne, .blt, .bge, .bltu, .bgeu] : List _) →
        immediateOf i = some ((w.extractLsb' 31 1 ++ w.extractLsb' 7 1 ++ w.extractLsb' 25 6 ++ w.extractLsb' 8 4 ++
          0#1 : BitVec 13).signExtend 32)) ∧
      (o ∈ ([.sb, .sh, .sw] : List _) →
        immediateOf i = some ((w.extractLsb' 25 7 ++ w.extractLsb' 7 5 : BitVec 12).signExtend 32))

/-- R70: the complete list of what is illegal, each class under its own name (funct3 and funct7 values: log 8, log 11). -/
def Obligations.RejectedWordsAreTheEightClasses : Prop :=
  ∀ w : Word,
    (decode w = .rejected .unknownOpcode ↔
      opcodeOf w ∉ ([0x37#7, 0x17#7, 0x6F#7, 0x67#7, 0x63#7, 0x03#7, 0x23#7, 0x13#7, 0x33#7, 0x0F#7, 0x73#7] : List _)) ∧
    (decode w = .rejected .branchFunct3 ↔ opcodeOf w = 0x63#7 ∧ funct3Of w ∈ ([2#3, 3#3] : List _)) ∧
    (decode w = .rejected .loadFunct3 ↔ opcodeOf w = 0x03#7 ∧ funct3Of w ∈ ([3#3, 6#3, 7#3] : List _)) ∧
    (decode w = .rejected .storeFunct3 ↔ opcodeOf w = 0x23#7 ∧ funct3Of w ∈ ([3#3, 4#3, 5#3, 6#3, 7#3] : List _)) ∧
    (decode w = .rejected .leftShiftUpperBits ↔ opcodeOf w = 0x13#7 ∧ funct3Of w = 1#3 ∧ funct7Of w ≠ 0#7) ∧
    (decode w = .rejected .rightShiftUpperBits ↔
      opcodeOf w = 0x13#7 ∧ funct3Of w = 5#3 ∧ funct7Of w ≠ 0#7 ∧ funct7Of w ≠ 0x20#7) ∧
    (decode w = .rejected .opFunct7 ↔ opcodeOf w = 0x33#7 ∧ funct7Of w ≠ 0#7 ∧ funct7Of w ≠ 0x20#7) ∧
    (decode w = .rejected .opFunct3 ↔
      opcodeOf w = 0x33#7 ∧ funct7Of w = 0x20#7 ∧ funct3Of w ≠ 0#3 ∧ funct3Of w ≠ 5#3) ∧
    decode w ≠ .rejected .truncated

/-- R62: the decoder's outputs for every word. The signal names are the spec's own (D14, log 20). The B and J bit order of the
immediate is R55 and R56, settled by 90_conflicts.md C6 (log 21). -/
def Obligations.DecoderOutputsDescribeTheDecodedWord : Prop :=
  ∀ w : Word,
    ((decoderOutputs w).illegal = true ↔
      (∃ r, decode w = .rejected r) ∨ decode w = .ok .fence ∨ decode w = .ok .system) ∧
    (∀ i : Instr, decode w = .ok i → (decoderOutputs w).illegal = false → (decoderOutputs w).op = some i.op) ∧
    (decoderOutputs w).rd = w.extractLsb' 7 5 ∧ (decoderOutputs w).rs1 = w.extractLsb' 15 5 ∧
    (decoderOutputs w).rs2 = w.extractLsb' 20 5 ∧ (decoderOutputs w).funct3 = w.extractLsb' 12 3 ∧
    (decoderOutputs w).funct7 = w.extractLsb' 25 7 ∧
    (∀ p ∈ ([(0x37#7, Group.lui), (0x17#7, .auipc), (0x6F#7, .jal), (0x67#7, .jalr), (0x63#7, .branch), (0x03#7, .load),
        (0x23#7, .store), (0x13#7, .opImm), (0x33#7, .op), (0x0F#7, .fence), (0x73#7, .system)] : List _),
      (decoderOutputs w).group = some p.2 ↔ w.extractLsb' 0 7 = p.1) ∧
    (∀ g : Group, (decoderOutputs w).group = some g →
      (g ∈ ([.lui, .auipc] : List _) → (decoderOutputs w).imm = some (w &&& 0xFFFFF000#32)) ∧
      (g = .jal → (decoderOutputs w).imm = some ((w.extractLsb' 31 1 ++ w.extractLsb' 12 8 ++ w.extractLsb' 20 1 ++
        w.extractLsb' 21 10 ++ 0#1 : BitVec 21).signExtend 32)) ∧
      (g ∈ ([.jalr, .load, .opImm] : List _) → (decoderOutputs w).imm = some ((w.extractLsb' 20 12).signExtend 32)) ∧
      (g = .branch → (decoderOutputs w).imm = some ((w.extractLsb' 31 1 ++ w.extractLsb' 7 1 ++ w.extractLsb' 25 6 ++
        w.extractLsb' 8 4 ++ 0#1 : BitVec 13).signExtend 32)) ∧
      (g = .store → (decoderOutputs w).imm = some ((w.extractLsb' 25 7 ++ w.extractLsb' 7 5 : BitVec 12).signExtend 32)))

/-- 95_test_vectors.md section 2.10 and part 1: words written out from the encodings decode to what they stand for. -/
def Obligations.WrittenOutWordsDecode : Prop :=
  decode 0xFFFFF0B7#32 = .ok (.lui 1 0xFFFFF000) ∧ decode 0x00001117#32 = .ok (.auipc 2 0x1000) ∧
  decode 0xFA1FF16F#32 = .ok (.jal 2 0xFFFFFFA0) ∧ decode 0xFE010267#32 = .ok (.jalr 4 2 0xFFFFFFE0) ∧
  decode 0xFE0002E3#32 = .ok (.beq 0 0 0xFFFFFFE4) ∧ decode 0xFFC0A283#32 = .ok (.lw 5 1 0xFFFFFFFC) ∧
  decode 0xFE209F23#32 = .ok (.sh 1 2 0xFFFFFFFE) ∧ decode 0x41F0D193#32 = .ok (.srai 3 1 31) ∧
  decode 0x4020D1B3#32 = .ok (.sra 3 1 2) ∧ decode 0x0FF0000F#32 = .ok .fence ∧ decode 0x00000073#32 = .ok .system

/-! ### The step -/

/-- R80, R37: a step runs the instruction that the four bytes at the pc decode to, and adds nothing around it. -/
def Obligations.StepRunsTheInstructionAtThePc : Prop :=
  ∀ (s : State) (i : Instr), s.runState = .running → s.pc.toNat + 4 ≤ s.memSize →
    decodeBytes [s.byteAt s.pc.toNat, s.byteAt (s.pc.toNat + 1), s.byteAt (s.pc.toNat + 2), s.byteAt (s.pc.toNat + 3)] = .ok i →
    step s = exec i s

/-- R192, the spec's decision D10: a halted machine has no transition and reports the latched fault again. -/
def Obligations.HaltedMachineReportsItsLatchedFault : Prop :=
  ∀ s : State, s.runState = .haltedOnFault → step s = .fault (.stepWhileHalted s.fault)

/-- R80, R192: a step answers a next state exactly while running, a stop exactly while halted, and never a refusal. That a
faulting step is a next state, the halted one, is the model's form of R189 (log 1, log 2). -/
def Obligations.StepAnswersExactlyWhileRunning : Prop :=
  ∀ s : State, ((∃ t, step s = .next t) ↔ s.runState = .running) ∧
    ((∃ f, step s = .fault f) ↔ s.runState = .haltedOnFault) ∧ ∀ r, step s ≠ .refused r

/-- R215, R192, R193: nothing follows a halted state in any run. -/
def Obligations.NothingFollowsAHaltedState : Prop :=
  ∀ s t : State, s.runState = .haltedOnFault → Reaches s t → t = s

/-- R189, R190, the spec's decision D9 (log 3): a step that leaves the machine halted has changed the run state and the latch
and nothing else. -/
def Obligations.FaultingStepChangesNothingElse : Prop :=
  ∀ s t : State, step s = .next t → t.runState = .haltedOnFault → ∃ k, s.Halted t k

/-- R186: OutOfRange is raised by the fetch at `pc` and by the data access of a load or store, exactly when the last byte
lies at or past MEM_SIZE, and by nothing else; and execution does not proceed. At or past, not only past, and counted in
unbounded integers: 90_conflicts.md C4 and the spec's decision D12 (R35, log 13). -/
def Obligations.OutOfRangeRaisedExactlyByAccessesPastTheEnd : Prop :=
  ∀ s t : State, step s = .next t →
    ((t.runState = .haltedOnFault ∧ t.fault = some .outOfRange) ↔
      s.memSize ≤ s.pc.toNat + 4 - 1 ∨
      ∃ (w : Word) (i : Instr) (addr : Word) (n : Width), s.fetchWord = some w ∧ decode w = .ok i ∧
        dataAccess i s = some (addr, n) ∧ s.memSize ≤ addr.toNat + n.bytes - 1) ∧
    (t.fault = some .outOfRange → t.runState = .haltedOnFault → ∀ u, step t ≠ .next u)

/-- R187: IllegalInstruction is raised exactly when the fetched word matches no pair of the table but those of the FENCE and
SYSTEM groups. -/
def Obligations.IllegalInstructionRaisedExactlyByUnmatchedWords : Prop :=
  ∀ s t : State, step s = .next t →
    ((t.runState = .haltedOnFault ∧ t.fault = some .illegalInstruction) ↔
      ∃ w : Word, s.fetchWord = some w ∧
        ∀ r ∈ opcodeTable, w &&& r.mask = r.pattern → r.op = .fence ∨ r.op = .system)

/-- R202: an unmatched word makes the step fail with IllegalInstruction and leaves the machine halted, with no further step,
never fetching it again. -/
def Obligations.UnmatchedWordHaltsInsteadOfRepeating : Prop :=
  ∀ (s : State) (w : Word), s.runState = .running → s.fetchWord = some w →
    (∀ r ∈ opcodeTable, w &&& r.mask ≠ r.pattern) →
    ∃ t, step s = .next t ∧ t.runState = .haltedOnFault ∧ t.fault = some .illegalInstruction ∧ ∀ u, step t ≠ .next u

/-- R201: an instruction whose data access, if it makes one, stays inside MEM_SIZE, and that is not of the FENCE or SYSTEM
group, never faults, whatever its registers (register 0 included), its operands, its target and its alignment. That no
access has an alignment requirement is the spec's decision D13 (log 12), that the range is counted in unbounded integers its
decision D12 (log 13). -/
def Obligations.OnlyAccessesPastTheEndAndGroupsFault : Prop :=
  ∀ (i : Instr) (s : State), isFenceOrSystem i = false →
    (∀ (addr : Word) (n : Width), dataAccess i s = some (addr, n) → addr.toNat + n.bytes ≤ s.memSize) →
    ∃ t, exec i s = .next t ∧ t.runState = s.runState ∧ t.fault = s.fault

/-- R71: every word of the FENCE and SYSTEM groups is recognised as its group and raises IllegalInstruction, whatever its other
bits. -/
def Obligations.FenceAndSystemRaiseIllegalInstruction : Prop :=
  (∀ w : Word, w &&& 0x0000007F#32 = 0x0000000F#32 → decode w = .ok .fence ∧ groupOf w = some .fence) ∧
  (∀ w : Word, w &&& 0x0000007F#32 = 0x00000073#32 → decode w = .ok .system ∧ groupOf w = some .system) ∧
  ∀ s : State,
    (∃ t, exec .fence s = .next t ∧ t.runState = .haltedOnFault ∧ t.fault = some .illegalInstruction) ∧
    (∃ t, exec .system s = .next t ∧ t.runState = .haltedOnFault ∧ t.fault = some .illegalInstruction)

/-- R180, R181 with R189: FENCE and SYSTEM change the run state and the latch and nothing else. That the rest is unchanged
is the spec's decision D9 (log 3). -/
def Obligations.FenceAndSystemChangeNothingElse : Prop :=
  ∀ s : State, (∃ t, exec .fence s = .next t ∧ s.Halted t .illegalInstruction) ∧
    (∃ t, exec .system s = .next t ∧ s.Halted t .illegalInstruction)

/-- R82: the pc advances by 4, modulo `2^32` and whatever its alignment, in every instruction that completes, but JAL, JALR,
a taken BRANCH and AUIPC in `legacy_source` mode. -/
def Obligations.PcAdvancesByFourUnlessRedirected : Prop :=
  ∀ (i : Instr) (s t : State), s.runState = .running → exec i s = .next t → t.runState = .running →
    redirectsPc i s = false → t.pc.toNat = (s.pc.toNat + 4) % 2 ^ 32

/-- R112: from an even pc every next pc is even (no instruction leaves the even addresses). -/
def Obligations.EvenPcStaysEven : Prop :=
  ∀ s t : State, s.pc.toNat % 2 = 0 → step s = .next t → t.pc.toNat % 2 = 0

/-- R43: a word stored where the pc goes next is what the next step fetches. -/
def Obligations.StoredWordIsFetchedByTheNextStep : Prop :=
  ∀ (s t : State) (rs1 rs2 : RegIdx) (imm : Word), s.Inv → s.runState = .running →
    exec (.sw rs1 rs2 imm) s = .next t → t.runState = .running →
    effectiveAddress (s.readReg rs1) imm = t.pc → t.fetchWord = some (s.readReg rs2)

/-- R215, the spec's convention D19: a running machine is at the self-jump exactly when the word at the pc is a JAL with
offset 0; and then at every later state the same word is fetched from the same pc, the step is taken, and it writes the `rd` of
that JAL alone, always with the first state's `pc + 4`. -/
def Obligations.SelfJumpRepeatsForEver : Prop :=
  (∀ s : State, s.atSelfJump = true ↔ ∃ w rd, s.fetchWord = some w ∧ decode w = .ok (.jal rd 0#32)) ∧
  ∀ (s : State) (w : Word) (rd : RegIdx), s.runState = .running → s.fetchWord = some w → decode w = .ok (.jal rd 0#32) →
    rd = w.extractLsb' 7 5 ∧
    ∀ t : State, Reaches s t → t.pc = s.pc ∧ t.fetchWord = some w ∧ t.atSelfJump = true ∧
      ∃ u, step t = .next u ∧ s.RegResult u rd (s.pc + 4#32) s.pc

/-! ### Whole-machine rules -/

/-- The invariant: canonical bounded memory (R22), `x[0]` stored as 0 (R13), the latch none exactly while running (R20),
parameters in range (R6). Every step keeps it, from every state that meets it. -/
def Obligations.EveryStepKeepsTheStateInvariant : Prop :=
  ∀ s t : State, s.Inv → step s = .next t → t.Inv

/-- R23: no step changes the launch parameters. -/
def Obligations.NoStepChangesTheParameters : Prop :=
  ∀ s t : State, Reaches s t → t.cfg = s.cfg

/-- R22: memory is written by SB, SH and SW alone; and those change no byte outside the bytes of their access. -/
def Obligations.OnlyStoresWriteMemoryAndOnlyTheirBytes : Prop :=
  ∀ (i : Instr) (s t : State), s.Inv → exec i s = .next t →
    (isStore i = false → s.SameMemory t) ∧
    (∀ (addr : Word) (n : Width), dataAccess i s = some (addr, n) →
      ∀ a : Nat, (a < addr.toNat ∨ addr.toNat + n.bytes ≤ a) → t.byteAt a = s.byteAt a)

/-- R14: no instruction writes a register it does not name as `rd`, and none reads a register it does not name: with another
value in a register it names nowhere, it does the same and leaves that value; with another value in its `rd` alone, a
completing instruction does exactly the same. -/
def Obligations.InstructionsTouchOnlyTheRegistersTheyName : Prop :=
  ∀ (i : Instr) (s t : State), exec i s = .next t →
    (∀ r : RegIdx, destOf i ≠ some r → t.readReg r = s.readReg r) ∧
    (∀ (r : RegIdx) (v : Word), r ∉ sourcesOf i → destOf i ≠ some r →
      exec i (s.writeReg r v) = .next (t.writeReg r v)) ∧
    (∀ (r : RegIdx) (v : Word), r ∉ sourcesOf i → destOf i = some r → s.runState = .running → t.runState = .running →
      exec i (s.writeReg r v) = .next t)

/-- R12, with R13: register 0 reads 0 whatever is written; every other register reads what was last written to it, or its
reset value; a write changes no other register. That the stored slot 0 keeps its value is the model's choice (log 19). -/
def Obligations.RegisterFileReadsAndWrites : Prop :=
  (∀ r : RegIdx, State.reset.readReg r = 0#32) ∧
  ∀ s : State, s.readReg 0#5 = 0#32 ∧ (∀ v, s.writeReg 0#5 v = s) ∧
    (∀ (r : RegIdx) (v : Word), r ≠ 0#5 → (s.writeReg r v).readReg r = v) ∧
    (∀ (r q : RegIdx) (v : Word), q ≠ r → (s.writeReg r v).readReg q = s.readReg q) ∧
    (∀ ws : List (RegIdx × Word), (ws.foldl (fun u p => u.writeReg p.1 p.2) s).readReg 0#5 = 0#32 ∧
      (ws.foldl (fun u p => u.writeReg p.1 p.2) s).regs[0] = s.regs[0])

/-- R28, R44, R62, R94, R95 wired as R80 orders them: the block as hardware computes the step, in every state. The signals
are the spec's own (D14, log 20). -/
def Obligations.DatapathComputesTheStep : Prop := ∀ s : State, datapathStep s = step s

/-! ### Memory -/

/-- R33: the value read is composed most-significant byte first and zero-extended. -/
def Obligations.ReadsAreBigEndianAndZeroExtended : Prop :=
  ∀ (s : State) (addr : Word) (w : Width), addr.toNat + w.bytes ≤ s.memSize →
    ∃ v, s.memRead addr w = some v ∧
      match w with
      | .byte => v.toNat = (s.byteAt addr.toNat).toNat
      | .half => v.toNat = (s.byteAt addr.toNat).toNat * 256 + (s.byteAt (addr.toNat + 1)).toNat
      | .word =>
        v.toNat = (s.byteAt addr.toNat).toNat * 16777216 + (s.byteAt (addr.toNat + 1)).toNat * 65536 +
          (s.byteAt (addr.toNat + 2)).toNat * 256 + (s.byteAt (addr.toNat + 3)).toNat

/-- R34: a write puts the low bytes of the value most-significant first, changes no other byte, and reads back, at every
in-range address, aligned or not. -/
def Obligations.WrittenValueReadsBackAndNoOtherByteChanges : Prop :=
  ∀ (s : State) (addr : Word) (w : Width) (v : Word), s.Inv → addr.toNat + w.bytes ≤ s.memSize →
    ∃ t, s.memWrite addr w v = some t ∧
      (∀ k < w.bytes, t.byteAt (addr.toNat + k) = v.extractLsb' (8 * (w.bytes - 1 - k)) 8) ∧
      (∀ a : Nat, (a < addr.toNat ∨ addr.toNat + w.bytes ≤ a) → t.byteAt a = s.byteAt a) ∧
      (∃ u, t.memRead addr w = some u ∧ u.toNat = v.toNat % 2 ^ (8 * w.bytes)) ∧
      s.SameRegs t ∧ t.pc = s.pc ∧ s.SameControl t

/-- R35 (90_conflicts.md C4, log 13), R36, R38, the spec's decisions D12 and D13 (log 12): an access fails exactly when its
last byte, counted in unbounded integers, lies at or past MEM_SIZE; alignment never matters. -/
def Obligations.AccessFailsExactlyPastTheEnd : Prop :=
  ∀ (s : State) (addr : Word) (w : Width) (v : Word),
    (s.memRead addr w = none ↔ 4 * s.cfg.ramSizeWords ≤ addr.toNat + w.bytes - 1) ∧
    (s.memWrite addr w v = none ↔ 4 * s.cfg.ramSizeWords ≤ addr.toNat + w.bytes - 1)

/-- R39: what narrower reads see of a stored word, at every place inside it. -/
def Obligations.NarrowReadsOfAStoredWord : Prop :=
  ∀ (s t : State) (a : Word) (v : Word), s.Inv → s.memWrite a .word v = some t →
    (∀ k : Nat, k < 4 → ∀ b : Word, b.toNat = a.toNat + k →
      t.memRead b .byte = some ((v.extractLsb' (8 * (3 - k)) 8).setWidth 32)) ∧
    (∀ k : Nat, k < 3 → ∀ b : Word, b.toNat = a.toNat + k →
      t.memRead b .half = some ((v.extractLsb' (8 * (2 - k)) 16).setWidth 32))

/-! ### LUI, AUIPC, JAL, JALR -/

/-- R100: encoding, result, pc, and nothing else. -/
def Obligations.LuiLoadsTheUpperImmediate : Prop :=
  (∀ w : Word, w &&& 0x0000007F#32 = 0x00000037#32 → decode w = .ok (.lui (w.extractLsb' 7 5) (w &&& 0xFFFFF000#32))) ∧
  ∀ (rd : RegIdx) (imm : Word) (s : State),
    ∃ t, exec (.lui rd imm) s = .next t ∧ s.RegResult t rd imm (s.pc + 4#32)

/-- R101: AUIPC in `canonical` mode. -/
def Obligations.AuipcCanonicalAddsToThePc : Prop :=
  (∀ w : Word, w &&& 0x0000007F#32 = 0x00000017#32 → decode w = .ok (.auipc (w.extractLsb' 7 5) (w &&& 0xFFFFF000#32))) ∧
  ∀ (rd : RegIdx) (imm : Word) (s : State), s.cfg.auipcMode = .canonical →
    ∃ t, exec (.auipc rd imm) s = .next t ∧ s.RegResult t rd (s.pc + imm) (s.pc + 4#32)

/-- R102, which the spec reconstructs from the source's scenario (log 6): AUIPC in `legacy_source` mode writes its target and
goes there; a zero immediate gives `pc + 4`. -/
def Obligations.AuipcLegacyJumpsToWhatItWrites : Prop :=
  ∀ (rd : RegIdx) (imm : Word) (s : State), s.cfg.auipcMode = .legacySource →
    (imm = 0#32 → ∃ t, exec (.auipc rd imm) s = .next t ∧ s.RegResult t rd (s.pc + 4#32) (s.pc + 4#32)) ∧
    (imm ≠ 0#32 → ∃ t, exec (.auipc rd imm) s = .next t ∧ s.RegResult t rd (s.pc + imm) (s.pc + imm))

/-- R110, R56: encoding, link from the old pc, target, and nothing else. The bit order of the J format is settled by
90_conflicts.md C6 (log 21). -/
def Obligations.JalLinksAndJumps : Prop :=
  (∀ w : Word, w &&& 0x0000007F#32 = 0x0000006F#32 →
    decode w = .ok (.jal (w.extractLsb' 7 5)
      ((w.extractLsb' 31 1 ++ w.extractLsb' 12 8 ++ w.extractLsb' 20 1 ++ w.extractLsb' 21 10 ++ 0#1 : BitVec 21).signExtend 32))) ∧
  ∀ (rd : RegIdx) (imm : Word) (s : State),
    ∃ t, exec (.jal rd imm) s = .next t ∧ s.RegResult t rd (s.pc + 4#32) (s.pc + imm)

/-- R111: encoding with bits 14:12 ignored, target from the old `x[rs1]` with bit 0 cleared, link, and nothing else; also
when `rd = rs1`. -/
def Obligations.JalrLinksAndJumpsThroughTheOldRegister : Prop :=
  (∀ w : Word, w &&& 0x0000007F#32 = 0x00000067#32 →
    decode w = .ok (.jalr (w.extractLsb' 7 5) (w.extractLsb' 15 5) ((w.extractLsb' 20 12).signExtend 32))) ∧
  ∀ (rd rs1 : RegIdx) (imm : Word) (s : State),
    ∃ t, exec (.jalr rd rs1 imm) s = .next t ∧
      s.RegResult t rd (s.pc + 4#32) ((s.readReg rs1 + imm) &&& 0xFFFFFFFE#32) ∧ t.pc.toNat % 2 = 0

/-! ### Branches -/

/-- R89: each branch is taken exactly when its condition holds of the two registers, read signed or unsigned; taken goes to
`pc + imm`, not taken to `pc + 4`; nothing else changes. -/
def Obligations.BranchesGoWhereTheirConditionSays : Prop :=
  ∀ (rs1 rs2 : RegIdx) (imm : Word) (s : State),
    (∃ t, exec (.beq rs1 rs2 imm) s = .next t ∧
      s.OnlyPc t (if s.readReg rs1 = s.readReg rs2 then s.pc + imm else s.pc + 4#32)) ∧
    (∃ t, exec (.bne rs1 rs2 imm) s = .next t ∧
      s.OnlyPc t (if s.readReg rs1 ≠ s.readReg rs2 then s.pc + imm else s.pc + 4#32)) ∧
    (∃ t, exec (.blt rs1 rs2 imm) s = .next t ∧
      s.OnlyPc t (if (s.readReg rs1).toInt < (s.readReg rs2).toInt then s.pc + imm else s.pc + 4#32)) ∧
    (∃ t, exec (.bge rs1 rs2 imm) s = .next t ∧
      s.OnlyPc t (if (s.readReg rs2).toInt ≤ (s.readReg rs1).toInt then s.pc + imm else s.pc + 4#32)) ∧
    (∃ t, exec (.bltu rs1 rs2 imm) s = .next t ∧
      s.OnlyPc t (if (s.readReg rs1).toNat < (s.readReg rs2).toNat then s.pc + imm else s.pc + 4#32)) ∧
    (∃ t, exec (.bgeu rs1 rs2 imm) s = .next t ∧
      s.OnlyPc t (if (s.readReg rs2).toNat ≤ (s.readReg rs1).toNat then s.pc + imm else s.pc + 4#32))

/-! ### ALU instructions -/

/-- R85: ADDI, ADD and SUB are exact sums and differences modulo `2^32`, in every state, with no fault and nothing else
changed; the pc, target and address adders follow the same law. -/
def Obligations.SumsAndDifferencesAreModular : Prop :=
  (∀ (rd rs1 : RegIdx) (imm : Word) (s : State), ∃ t v, exec (.addi rd rs1 imm) s = .next t ∧
    s.RegResult t rd v (s.pc + 4#32) ∧ v.toNat = ((s.readReg rs1).toNat + imm.toNat) % 2 ^ 32) ∧
  (∀ (rd rs1 rs2 : RegIdx) (s : State), ∃ t v, exec (.add rd rs1 rs2) s = .next t ∧
    s.RegResult t rd v (s.pc + 4#32) ∧ v.toNat = ((s.readReg rs1).toNat + (s.readReg rs2).toNat) % 2 ^ 32) ∧
  (∀ (rd rs1 rs2 : RegIdx) (s : State), ∃ t v, exec (.sub rd rs1 rs2) s = .next t ∧
    s.RegResult t rd v (s.pc + 4#32) ∧
    v.toNat = ((s.readReg rs1).toNat + 2 ^ 32 - (s.readReg rs2).toNat) % 2 ^ 32) ∧
  (∀ a b : Word, (pcRelative a b).toNat = (a.toNat + b.toNat) % 2 ^ 32 ∧
    (effectiveAddress a b).toNat = (a.toNat + b.toNat) % 2 ^ 32 ∧ (sequential a).toNat = (a.toNat + 4) % 2 ^ 32)

/-- R86: SLTI, SLT compare signed and SLTIU, SLTU unsigned, and write the 32-bit value 1 or 0. -/
def Obligations.ComparisonsWriteOneOrZero : Prop :=
  (∀ (rd rs1 : RegIdx) (imm : Word) (s : State), ∃ t, exec (.slti rd rs1 imm) s = .next t ∧
    s.RegResult t rd (if (s.readReg rs1).toInt < imm.toInt then 1#32 else 0#32) (s.pc + 4#32)) ∧
  (∀ (rd rs1 : RegIdx) (imm : Word) (s : State), ∃ t, exec (.sltiu rd rs1 imm) s = .next t ∧
    s.RegResult t rd (if (s.readReg rs1).toNat < imm.toNat then 1#32 else 0#32) (s.pc + 4#32)) ∧
  (∀ (rd rs1 rs2 : RegIdx) (s : State), ∃ t, exec (.slt rd rs1 rs2) s = .next t ∧
    s.RegResult t rd (if (s.readReg rs1).toInt < (s.readReg rs2).toInt then 1#32 else 0#32) (s.pc + 4#32)) ∧
  (∀ (rd rs1 rs2 : RegIdx) (s : State), ∃ t, exec (.sltu rd rs1 rs2) s = .next t ∧
    s.RegResult t rd (if (s.readReg rs1).toNat < (s.readReg rs2).toNat then 1#32 else 0#32) (s.pc + 4#32))

/-- R88: XORI, ORI, ANDI, XOR, OR, AND act on each of the 32 bit positions independently. -/
def Obligations.BitwiseInstructionsActOnEachBit : Prop :=
  (∀ (rd rs1 : RegIdx) (imm : Word) (s : State),
    (∃ t v, exec (.xori rd rs1 imm) s = .next t ∧ s.RegResult t rd v (s.pc + 4#32) ∧
      ∀ k < 32, v.getLsbD k = ((s.readReg rs1).getLsbD k != imm.getLsbD k)) ∧
    (∃ t v, exec (.ori rd rs1 imm) s = .next t ∧ s.RegResult t rd v (s.pc + 4#32) ∧
      ∀ k < 32, v.getLsbD k = ((s.readReg rs1).getLsbD k || imm.getLsbD k)) ∧
    (∃ t v, exec (.andi rd rs1 imm) s = .next t ∧ s.RegResult t rd v (s.pc + 4#32) ∧
      ∀ k < 32, v.getLsbD k = ((s.readReg rs1).getLsbD k && imm.getLsbD k))) ∧
  (∀ (rd rs1 rs2 : RegIdx) (s : State),
    (∃ t v, exec (.xor rd rs1 rs2) s = .next t ∧ s.RegResult t rd v (s.pc + 4#32) ∧
      ∀ k < 32, v.getLsbD k = ((s.readReg rs1).getLsbD k != (s.readReg rs2).getLsbD k)) ∧
    (∃ t v, exec (.or rd rs1 rs2) s = .next t ∧ s.RegResult t rd v (s.pc + 4#32) ∧
      ∀ k < 32, v.getLsbD k = ((s.readReg rs1).getLsbD k || (s.readReg rs2).getLsbD k)) ∧
    (∃ t v, exec (.and rd rs1 rs2) s = .next t ∧ s.RegResult t rd v (s.pc + 4#32) ∧
      ∀ k < 32, v.getLsbD k = ((s.readReg rs1).getLsbD k && (s.readReg rs2).getLsbD k)))

/-- R157, R158, R159 with the shift laws of R87: SLLI, SRLI and SRAI by `shamt` in 0 to 31, as exact arithmetic. -/
def Obligations.ImmediateShifts : Prop :=
  ∀ (rd rs1 : RegIdx) (shamt : BitVec 5) (s : State),
    (∃ t v, exec (.slli rd rs1 shamt) s = .next t ∧ s.RegResult t rd v (s.pc + 4#32) ∧
      v.toNat = ((s.readReg rs1).toNat * 2 ^ shamt.toNat) % 2 ^ 32) ∧
    (∃ t v, exec (.srli rd rs1 shamt) s = .next t ∧ s.RegResult t rd v (s.pc + 4#32) ∧
      v.toNat = (s.readReg rs1).toNat / 2 ^ shamt.toNat) ∧
    (∃ t v, exec (.srai rd rs1 shamt) s = .next t ∧ s.RegResult t rd v (s.pc + 4#32) ∧
      v.toInt = (s.readReg rs1).toInt / 2 ^ shamt.toNat)

/-- R168, R172, R173: SLL, SRL and SRA shift by the low five bits of `x[rs2]`, the upper 27 ignored. That amount is the
spec's, from general knowledge, its decision D6 (log 9). -/
def Obligations.RegisterShiftsUseTheLowFiveBits : Prop :=
  ∀ (rd rs1 rs2 : RegIdx) (s : State),
    (∃ t v, exec (.sll rd rs1 rs2) s = .next t ∧ s.RegResult t rd v (s.pc + 4#32) ∧
      v.toNat = ((s.readReg rs1).toNat * 2 ^ ((s.readReg rs2).toNat % 32)) % 2 ^ 32) ∧
    (∃ t v, exec (.srl rd rs1 rs2) s = .next t ∧ s.RegResult t rd v (s.pc + 4#32) ∧
      v.toNat = (s.readReg rs1).toNat / 2 ^ ((s.readReg rs2).toNat % 32)) ∧
    (∃ t v, exec (.sra rd rs1 rs2) s = .next t ∧ s.RegResult t rd v (s.pc + 4#32) ∧
      v.toInt = (s.readReg rs1).toInt / 2 ^ ((s.readReg rs2).toNat % 32))

/-! ### Loads and stores -/

/-- R92: the five loads, at any in-range address, aligned or not: LB and LH sign-extend, LBU and LHU zero-extend, LW is the
word unmodified; the byte at the lower address is the high one (R33). Nothing else changes. That no access has an alignment
requirement is the spec's decision D13 (R38, log 12), the range is its decision D12 (log 13). -/
def Obligations.LoadsExtendTheBytesTheyRead : Prop :=
  ∀ (rd rs1 : RegIdx) (imm : Word) (s : State) (ea : Nat), ea = (effectiveAddress (s.readReg rs1) imm).toNat →
    (ea + 1 ≤ s.memSize → ∃ t, exec (.lb rd rs1 imm) s = .next t ∧
      s.RegResult t rd ((s.byteAt ea).signExtend 32) (s.pc + 4#32)) ∧
    (ea + 1 ≤ s.memSize → ∃ t, exec (.lbu rd rs1 imm) s = .next t ∧
      s.RegResult t rd ((s.byteAt ea).setWidth 32) (s.pc + 4#32)) ∧
    (ea + 2 ≤ s.memSize → ∃ t, exec (.lh rd rs1 imm) s = .next t ∧
      s.RegResult t rd ((s.byteAt ea ++ s.byteAt (ea + 1)).signExtend 32) (s.pc + 4#32)) ∧
    (ea + 2 ≤ s.memSize → ∃ t, exec (.lhu rd rs1 imm) s = .next t ∧
      s.RegResult t rd ((s.byteAt ea ++ s.byteAt (ea + 1)).setWidth 32) (s.pc + 4#32)) ∧
    (ea + 4 ≤ s.memSize → ∃ t, exec (.lw rd rs1 imm) s = .next t ∧
      s.RegResult t rd (s.byteAt ea ++ s.byteAt (ea + 1) ++ s.byteAt (ea + 2) ++ s.byteAt (ea + 3)) (s.pc + 4#32))

/-- R93, with R34: the three stores put the low 8, 16 or 32 bits of `x[rs2]` at the address their handler computes, the most
significant byte first, and change no other byte, no register and no control state; the pc advances. At every in-range
address, aligned or not: the spec's decisions D13 (R38, log 12) and D12 (log 13). -/
def Obligations.StoresWriteTheLowBytesOfTheRegister : Prop :=
  ∀ (rs1 rs2 : RegIdx) (imm : Word) (s : State) (ea : Nat), s.Inv → ea = (effectiveAddress (s.readReg rs1) imm).toNat →
    (ea + 1 ≤ s.memSize → ∃ t, exec (.sb rs1 rs2 imm) s = .next t ∧
      t.byteAt ea = (s.readReg rs2).extractLsb' 0 8 ∧
      (∀ a : Nat, a ≠ ea → t.byteAt a = s.byteAt a) ∧
      s.SameRegs t ∧ t.pc = s.pc + 4#32 ∧ s.SameControl t) ∧
    (ea + 2 ≤ s.memSize → ∃ t, exec (.sh rs1 rs2 imm) s = .next t ∧
      t.byteAt ea = (s.readReg rs2).extractLsb' 8 8 ∧ t.byteAt (ea + 1) = (s.readReg rs2).extractLsb' 0 8 ∧
      (∀ a : Nat, (a < ea ∨ ea + 2 ≤ a) → t.byteAt a = s.byteAt a) ∧
      s.SameRegs t ∧ t.pc = s.pc + 4#32 ∧ s.SameControl t) ∧
    (ea + 4 ≤ s.memSize → ∃ t, exec (.sw rs1 rs2 imm) s = .next t ∧
      t.byteAt ea = (s.readReg rs2).extractLsb' 24 8 ∧ t.byteAt (ea + 1) = (s.readReg rs2).extractLsb' 16 8 ∧
      t.byteAt (ea + 2) = (s.readReg rs2).extractLsb' 8 8 ∧ t.byteAt (ea + 3) = (s.readReg rs2).extractLsb' 0 8 ∧
      (∀ a : Nat, (a < ea ∨ ea + 4 ≤ a) → t.byteAt a = s.byteAt a) ∧
      s.SameRegs t ∧ t.pc = s.pc + 4#32 ∧ s.SameControl t)

/-- R130, R140, R189: a load or store whose last byte lies at or past MEM_SIZE halts the machine with OutOfRange and changes
nothing else, also a load to register 0. The unchanged state is the spec's decision D9 (log 3); at or past, and the sum in
unbounded integers, are 90_conflicts.md C4 and the spec's decision D12 (R35, log 13). -/
def Obligations.LoadsAndStoresPastTheEndHalt : Prop :=
  ∀ (i : Instr) (s : State) (addr : Word) (n : Width), dataAccess i s = some (addr, n) →
    4 * s.cfg.ramSizeWords ≤ addr.toNat + n.bytes - 1 → ∃ t, exec i s = .next t ∧ s.Halted t .outOfRange

/-- R200: the inspection accessors show a register, the register array, the pc and a window of memory inside MEM_SIZE. -/
def Obligations.InspectionShowsTheState : Prop :=
  ∀ s : State, (∀ r : RegIdx, s.inspectReg r = s.readReg r) ∧
    (∀ r : RegIdx, s.inspectRegs[r.toNat]'r.isLt = s.readReg r) ∧ s.inspectPc = s.pc ∧
    ∀ start len : Nat, start + len ≤ s.memSize → ∃ bs, s.inspectMem start len = some bs ∧ bs.length = len ∧
      ∀ (k : Nat) (h : k < bs.length), bs[k] = s.byteAt (start + k)
end

