-- ==== Sys2Proof/Laws/Decode.lean ====
section
/-! SUPPORT. Laws of the decoder and the encoder: what each encoder puts in each field, and when a table row accepts a word. -/

namespace Sys2Proof

/-! ### Masks (R61) as fields -/

theorem and_opcodeMask (w : Word) : w &&& 0x0000007F#32 = (opcodeOf w).setWidth 32 := by
  apply BitVec.eq_of_getLsbD_eq; intro i hi
  simp only [opcodeOf, BitVec.getLsbD_and, BitVec.getLsbD_setWidth, BitVec.getLsbD_extractLsb']
  rcases Nat.lt_or_ge i 7 with h | h <;> interval_cases i <;> simp

theorem and_funct3Mask (w : Word) : w &&& 0x0000707F#32 = 0#17 ++ funct3Of w ++ 0#5 ++ opcodeOf w := by
  apply BitVec.eq_of_getLsbD_eq; intro i hi
  simp only [opcodeOf, funct3Of, BitVec.getLsbD_and, BitVec.getLsbD_append, BitVec.getLsbD_extractLsb']
  interval_cases i <;> simp

theorem and_funct7Mask (w : Word) : w &&& 0xFE00707F#32 = funct7Of w ++ 0#10 ++ funct3Of w ++ 0#5 ++ opcodeOf w := by
  apply BitVec.eq_of_getLsbD_eq; intro i hi
  simp only [opcodeOf, funct3Of, funct7Of, BitVec.getLsbD_and, BitVec.getLsbD_append, BitVec.getLsbD_extractLsb']
  interval_cases i <;> simp

/-- The three shapes of a masked-equality match (R61), in terms of the compared fields. -/
theorem match_opcode (w : Word) (p : BitVec 7) : w &&& 0x0000007F#32 = p.setWidth 32 ↔ opcodeOf w = p := by
  rw [and_opcodeMask]
  constructor
  · intro h
    have := congrArg (BitVec.setWidth 7) h
    simpa using this
  · rintro rfl; rfl

theorem match_funct3 (w : Word) (f3 : BitVec 3) (p : BitVec 7) :
    w &&& 0x0000707F#32 = 0#17 ++ f3 ++ 0#5 ++ p ↔ opcodeOf w = p ∧ funct3Of w = f3 := by
  rw [and_funct3Mask]
  constructor
  · intro h
    have ho := congrArg opcodeOf h
    have hf := congrArg funct3Of h
    have go (f : BitVec 3) (o : BitVec 7) : opcodeOf (0#17 ++ f ++ 0#5 ++ o) = o := by
      apply BitVec.eq_of_getLsbD_eq; intro i hi
      simp only [opcodeOf, BitVec.getLsbD_append, BitVec.getLsbD_extractLsb']
      interval_cases i <;> simp
    have gf (f : BitVec 3) (o : BitVec 7) : funct3Of (0#17 ++ f ++ 0#5 ++ o) = f := by
      apply BitVec.eq_of_getLsbD_eq; intro i hi
      simp only [funct3Of, BitVec.getLsbD_append, BitVec.getLsbD_extractLsb']
      interval_cases i <;> simp
    rw [go, go] at ho
    rw [gf, gf] at hf
    exact ⟨ho, hf⟩
  · rintro ⟨rfl, rfl⟩; rfl

theorem match_funct7 (w : Word) (f7 : BitVec 7) (f3 : BitVec 3) (p : BitVec 7) :
    w &&& 0xFE00707F#32 = f7 ++ 0#10 ++ f3 ++ 0#5 ++ p ↔ opcodeOf w = p ∧ funct3Of w = f3 ∧ funct7Of w = f7 := by
  rw [and_funct7Mask]
  constructor
  · intro h
    have ho := congrArg opcodeOf h
    have hf := congrArg funct3Of h
    have hs := congrArg funct7Of h
    have go (f : BitVec 7) (g : BitVec 3) (o : BitVec 7) : opcodeOf (f ++ 0#10 ++ g ++ 0#5 ++ o) = o := by
      apply BitVec.eq_of_getLsbD_eq; intro i hi
      simp only [opcodeOf, BitVec.getLsbD_append, BitVec.getLsbD_extractLsb']
      interval_cases i <;> simp
    have gf (f : BitVec 7) (g : BitVec 3) (o : BitVec 7) : funct3Of (f ++ 0#10 ++ g ++ 0#5 ++ o) = g := by
      apply BitVec.eq_of_getLsbD_eq; intro i hi
      simp only [funct3Of, BitVec.getLsbD_append, BitVec.getLsbD_extractLsb']
      interval_cases i <;> simp
    have gs (f : BitVec 7) (g : BitVec 3) (o : BitVec 7) : funct7Of (f ++ 0#10 ++ g ++ 0#5 ++ o) = f := by
      apply BitVec.eq_of_getLsbD_eq; intro i hi
      simp only [funct7Of, BitVec.getLsbD_append, BitVec.getLsbD_extractLsb']
      interval_cases i <;> simp
    rw [go, go] at ho
    rw [gf, gf] at hf
    rw [gs, gs] at hs
    exact ⟨ho, hf, hs⟩
  · rintro ⟨rfl, rfl, rfl⟩; rfl

/-! ### The operation of a word, by its fields

`opOf` runs the masked-equality matches of the table; the lemma below says what it answers in terms of the three compared
fields, so that no later proof runs the table again. -/

/-- `opOf` on the three fields, read off the opcode map (R60, R63 to R68, R71). -/
def opOfFields (o : BitVec 7) (f3 : BitVec 3) (f7 : BitVec 7) : Option Op :=
  opOf (f7 ++ 0#10 ++ f3 ++ 0#5 ++ o)

/-- A row looks at no bit outside the widest mask. -/
theorem accepts_and_funct7Mask (r : Row) (hr : r ∈ opcodeTable) (w : Word) :
    r.accepts (w &&& 0xFE00707F#32) = r.accepts w := by
  have hm : ∀ r ∈ opcodeTable, (0xFE00707F#32 : Word) &&& r.mask = r.mask := by decide
  simp only [Row.accepts, BitVec.and_assoc, hm r hr]

/-- The operation depends on the opcode, funct3 and funct7 fields alone (R61). -/
theorem opOf_eq_fields (w : Word) : opOf w = opOfFields (opcodeOf w) (funct3Of w) (funct7Of w) := by
  have h : opcodeTable.find? (·.accepts w) = opcodeTable.find? (·.accepts (w &&& 0xFE00707F#32)) := by
    have gen : ∀ l : List Row, (∀ r ∈ l, r ∈ opcodeTable) →
        l.find? (·.accepts w) = l.find? (·.accepts (w &&& 0xFE00707F#32)) := by
      intro l hl
      induction l with
      | nil => rfl
      | cons r l ih =>
        rw [List.find?_cons, List.find?_cons, accepts_and_funct7Mask r (hl r (by simp)),
          ih (fun r h => hl r (List.mem_cons_of_mem _ h))]
    exact gen opcodeTable (fun _ h => h)
  rw [opOfFields, opOf, h, and_funct7Mask]; rfl

/-! ### What each encoder puts in each field -/

@[simp] theorem opcodeOf_encodeU (o : BitVec 7) (rd : RegIdx) (imm : Word) : opcodeOf (encodeU o rd imm) = o := by
  apply BitVec.eq_of_getLsbD_eq; intro i hi
  simp only [opcodeOf, encodeU, BitVec.getLsbD_append, BitVec.getLsbD_extractLsb']
  interval_cases i <;> simp

@[simp] theorem rdOf_encodeU (o : BitVec 7) (rd : RegIdx) (imm : Word) : rdOf (encodeU o rd imm) = rd := by
  apply BitVec.eq_of_getLsbD_eq; intro i hi
  simp only [rdOf, encodeU, BitVec.getLsbD_append, BitVec.getLsbD_extractLsb']
  interval_cases i <;> simp

@[simp] theorem opcodeOf_encodeJ (o : BitVec 7) (rd : RegIdx) (imm : Word) : opcodeOf (encodeJ o rd imm) = o := by
  apply BitVec.eq_of_getLsbD_eq; intro i hi
  simp only [opcodeOf, encodeJ, BitVec.getLsbD_append, BitVec.getLsbD_extractLsb']
  interval_cases i <;> simp

@[simp] theorem rdOf_encodeJ (o : BitVec 7) (rd : RegIdx) (imm : Word) : rdOf (encodeJ o rd imm) = rd := by
  apply BitVec.eq_of_getLsbD_eq; intro i hi
  simp only [rdOf, encodeJ, BitVec.getLsbD_append, BitVec.getLsbD_extractLsb']
  interval_cases i <;> simp

@[simp] theorem opcodeOf_encodeI (o : BitVec 7) (f3 : BitVec 3) (rd rs1 : RegIdx) (imm : Word) : opcodeOf (encodeI o f3 rd rs1 imm) = o := by
  apply BitVec.eq_of_getLsbD_eq; intro i hi
  simp only [opcodeOf, encodeI, BitVec.getLsbD_append, BitVec.getLsbD_extractLsb']
  interval_cases i <;> simp

@[simp] theorem funct3Of_encodeI (o : BitVec 7) (f3 : BitVec 3) (rd rs1 : RegIdx) (imm : Word) : funct3Of (encodeI o f3 rd rs1 imm) = f3 := by
  apply BitVec.eq_of_getLsbD_eq; intro i hi
  simp only [funct3Of, encodeI, BitVec.getLsbD_append, BitVec.getLsbD_extractLsb']
  interval_cases i <;> simp

@[simp] theorem rdOf_encodeI (o : BitVec 7) (f3 : BitVec 3) (rd rs1 : RegIdx) (imm : Word) : rdOf (encodeI o f3 rd rs1 imm) = rd := by
  apply BitVec.eq_of_getLsbD_eq; intro i hi
  simp only [rdOf, encodeI, BitVec.getLsbD_append, BitVec.getLsbD_extractLsb']
  interval_cases i <;> simp

@[simp] theorem rs1Of_encodeI (o : BitVec 7) (f3 : BitVec 3) (rd rs1 : RegIdx) (imm : Word) : rs1Of (encodeI o f3 rd rs1 imm) = rs1 := by
  apply BitVec.eq_of_getLsbD_eq; intro i hi
  simp only [rs1Of, encodeI, BitVec.getLsbD_append, BitVec.getLsbD_extractLsb']
  interval_cases i <;> simp

@[simp] theorem opcodeOf_encodeS (o : BitVec 7) (f3 : BitVec 3) (rs1 rs2 : RegIdx) (imm : Word) : opcodeOf (encodeS o f3 rs1 rs2 imm) = o := by
  apply BitVec.eq_of_getLsbD_eq; intro i hi
  simp only [opcodeOf, encodeS, BitVec.getLsbD_append, BitVec.getLsbD_extractLsb']
  interval_cases i <;> simp

@[simp] theorem funct3Of_encodeS (o : BitVec 7) (f3 : BitVec 3) (rs1 rs2 : RegIdx) (imm : Word) : funct3Of (encodeS o f3 rs1 rs2 imm) = f3 := by
  apply BitVec.eq_of_getLsbD_eq; intro i hi
  simp only [funct3Of, encodeS, BitVec.getLsbD_append, BitVec.getLsbD_extractLsb']
  interval_cases i <;> simp

@[simp] theorem rs1Of_encodeS (o : BitVec 7) (f3 : BitVec 3) (rs1 rs2 : RegIdx) (imm : Word) : rs1Of (encodeS o f3 rs1 rs2 imm) = rs1 := by
  apply BitVec.eq_of_getLsbD_eq; intro i hi
  simp only [rs1Of, encodeS, BitVec.getLsbD_append, BitVec.getLsbD_extractLsb']
  interval_cases i <;> simp

@[simp] theorem rs2Of_encodeS (o : BitVec 7) (f3 : BitVec 3) (rs1 rs2 : RegIdx) (imm : Word) : rs2Of (encodeS o f3 rs1 rs2 imm) = rs2 := by
  apply BitVec.eq_of_getLsbD_eq; intro i hi
  simp only [rs2Of, encodeS, BitVec.getLsbD_append, BitVec.getLsbD_extractLsb']
  interval_cases i <;> simp

@[simp] theorem opcodeOf_encodeB (o : BitVec 7) (f3 : BitVec 3) (rs1 rs2 : RegIdx) (imm : Word) : opcodeOf (encodeB o f3 rs1 rs2 imm) = o := by
  apply BitVec.eq_of_getLsbD_eq; intro i hi
  simp only [opcodeOf, encodeB, BitVec.getLsbD_append, BitVec.getLsbD_extractLsb']
  interval_cases i <;> simp

@[simp] theorem funct3Of_encodeB (o : BitVec 7) (f3 : BitVec 3) (rs1 rs2 : RegIdx) (imm : Word) : funct3Of (encodeB o f3 rs1 rs2 imm) = f3 := by
  apply BitVec.eq_of_getLsbD_eq; intro i hi
  simp only [funct3Of, encodeB, BitVec.getLsbD_append, BitVec.getLsbD_extractLsb']
  interval_cases i <;> simp

@[simp] theorem rs1Of_encodeB (o : BitVec 7) (f3 : BitVec 3) (rs1 rs2 : RegIdx) (imm : Word) : rs1Of (encodeB o f3 rs1 rs2 imm) = rs1 := by
  apply BitVec.eq_of_getLsbD_eq; intro i hi
  simp only [rs1Of, encodeB, BitVec.getLsbD_append, BitVec.getLsbD_extractLsb']
  interval_cases i <;> simp

@[simp] theorem rs2Of_encodeB (o : BitVec 7) (f3 : BitVec 3) (rs1 rs2 : RegIdx) (imm : Word) : rs2Of (encodeB o f3 rs1 rs2 imm) = rs2 := by
  apply BitVec.eq_of_getLsbD_eq; intro i hi
  simp only [rs2Of, encodeB, BitVec.getLsbD_append, BitVec.getLsbD_extractLsb']
  interval_cases i <;> simp

@[simp] theorem opcodeOf_encodeR (o f7 : BitVec 7) (f3 : BitVec 3) (rd rs1 rs2 : RegIdx) : opcodeOf (encodeR o f7 f3 rd rs1 rs2) = o := by
  apply BitVec.eq_of_getLsbD_eq; intro i hi
  simp only [opcodeOf, encodeR, BitVec.getLsbD_append, BitVec.getLsbD_extractLsb']
  interval_cases i <;> simp

@[simp] theorem funct3Of_encodeR (o f7 : BitVec 7) (f3 : BitVec 3) (rd rs1 rs2 : RegIdx) : funct3Of (encodeR o f7 f3 rd rs1 rs2) = f3 := by
  apply BitVec.eq_of_getLsbD_eq; intro i hi
  simp only [funct3Of, encodeR, BitVec.getLsbD_append, BitVec.getLsbD_extractLsb']
  interval_cases i <;> simp

@[simp] theorem funct7Of_encodeR (o f7 : BitVec 7) (f3 : BitVec 3) (rd rs1 rs2 : RegIdx) : funct7Of (encodeR o f7 f3 rd rs1 rs2) = f7 := by
  apply BitVec.eq_of_getLsbD_eq; intro i hi
  simp only [funct7Of, encodeR, BitVec.getLsbD_append, BitVec.getLsbD_extractLsb']
  interval_cases i <;> simp

@[simp] theorem rdOf_encodeR (o f7 : BitVec 7) (f3 : BitVec 3) (rd rs1 rs2 : RegIdx) : rdOf (encodeR o f7 f3 rd rs1 rs2) = rd := by
  apply BitVec.eq_of_getLsbD_eq; intro i hi
  simp only [rdOf, encodeR, BitVec.getLsbD_append, BitVec.getLsbD_extractLsb']
  interval_cases i <;> simp

@[simp] theorem rs1Of_encodeR (o f7 : BitVec 7) (f3 : BitVec 3) (rd rs1 rs2 : RegIdx) : rs1Of (encodeR o f7 f3 rd rs1 rs2) = rs1 := by
  apply BitVec.eq_of_getLsbD_eq; intro i hi
  simp only [rs1Of, encodeR, BitVec.getLsbD_append, BitVec.getLsbD_extractLsb']
  interval_cases i <;> simp

@[simp] theorem rs2Of_encodeR (o f7 : BitVec 7) (f3 : BitVec 3) (rd rs1 rs2 : RegIdx) : rs2Of (encodeR o f7 f3 rd rs1 rs2) = rs2 := by
  apply BitVec.eq_of_getLsbD_eq; intro i hi
  simp only [rs2Of, encodeR, BitVec.getLsbD_append, BitVec.getLsbD_extractLsb']
  interval_cases i <;> simp

/-! ### Immediates of well-formed instructions (R52 to R56, R74) -/

/-- A 32-bit value whose signed reading fits in `n` bits is the sign extension of its low `n` bits. -/
theorem signExtend_low (imm : Word) (n : Nat) (hn : n ≤ 32) (lo : -(2 ^ n : Int) ≤ 2 * imm.toInt)
    (hi : 2 * imm.toInt < 2 ^ n) : (imm.extractLsb' 0 n).signExtend 32 = imm := by
  apply BitVec.eq_of_toInt_eq
  have hx : imm.extractLsb' 0 n = imm.setWidth n := by
    apply BitVec.eq_of_getLsbD_eq; intro i hi; simp [hi]
  rw [BitVec.toInt_signExtend_of_le hn, hx, BitVec.toInt_setWidth]
  have hd : ((imm.toNat : Int)).bmod (2 ^ n) = imm.toInt.bmod (2 ^ n) := by
    rw [BitVec.toInt_eq_toNat_bmod, Int.bmod_bmod_of_dvd (Nat.pow_dvd_pow 2 hn)]
  rw [hd]
  apply Int.bmod_eq_of_le_mul_two <;> push_cast <;> omega

theorem immU_encodeU (o : BitVec 7) (rd : RegIdx) (imm : Word) (h : fitsU imm = true) : immU (encodeU o rd imm) = imm := by
  have h0 : imm.extractLsb' 0 12 = 0#12 := by
    apply BitVec.eq_of_toNat_eq; simp [fitsU] at h; simpa using h
  have hb : ∀ i < 12, imm.getLsbD i = false := by
    intro i hi; have := congrArg (·.getLsbD i) h0; simpa [hi] using this
  apply BitVec.eq_of_getLsbD_eq; intro i hi
  simp only [immU, encodeU, BitVec.getLsbD_append, BitVec.getLsbD_extractLsb']
  rcases Nat.lt_or_ge i 12 with h | h
  · simp [h, hb i h]
  · interval_cases i <;> simp

theorem immI_encodeI (o : BitVec 7) (f3 : BitVec 3) (rd rs1 : RegIdx) (imm : Word) (h : fits12 imm = true) :
    immI (encodeI o f3 rd rs1 imm) = imm := by
  have hx : (encodeI o f3 rd rs1 imm).extractLsb' 20 12 = imm.extractLsb' 0 12 := by
    apply BitVec.eq_of_getLsbD_eq; intro i hi
    simp only [encodeI, BitVec.getLsbD_append, BitVec.getLsbD_extractLsb']
    interval_cases i <;> simp
  simp only [fits12, decide_eq_true_eq] at h
  rw [immI, hx]
  exact signExtend_low imm 12 (by decide) (by omega) (by omega)

theorem immS_encodeS (o : BitVec 7) (f3 : BitVec 3) (rs1 rs2 : RegIdx) (imm : Word) (h : fits12 imm = true) :
    immS (encodeS o f3 rs1 rs2 imm) = imm := by
  have hx : ((encodeS o f3 rs1 rs2 imm).extractLsb' 25 7 ++ (encodeS o f3 rs1 rs2 imm).extractLsb' 7 5 : BitVec 12) =
      imm.extractLsb' 0 12 := by
    apply BitVec.eq_of_getLsbD_eq; intro i hi
    simp only [encodeS, BitVec.getLsbD_append, BitVec.getLsbD_extractLsb']
    interval_cases i <;> simp
  simp only [fits12, decide_eq_true_eq] at h
  rw [immS, hx]
  exact signExtend_low imm 12 (by decide) (by omega) (by omega)

/-- An even value has bit 0 clear. -/
theorem bit0_of_even (imm : Word) (h : imm.toInt % 2 = 0) : imm[0] = false := by
  have : imm.toNat % 2 = 0 := by
    rw [BitVec.toInt_eq_toNat_cond] at h; split at h <;> omega
  rw [← BitVec.getLsbD_eq_getElem]; simp [BitVec.getLsbD, Nat.testBit_zero, this]

theorem immB_encodeB (o : BitVec 7) (f3 : BitVec 3) (rs1 rs2 : RegIdx) (imm : Word) (h : fitsB imm = true) :
    immB (encodeB o f3 rs1 rs2 imm) = imm := by
  simp only [fitsB, decide_eq_true_eq] at h
  have h0 := bit0_of_even imm h.2.2
  let w := encodeB o f3 rs1 rs2 imm
  have hx : (w.extractLsb' 31 1 ++ w.extractLsb' 7 1 ++ w.extractLsb' 25 6 ++ w.extractLsb' 8 4 ++ 0#1 : BitVec 13) =
      imm.extractLsb' 0 13 := by
    apply BitVec.eq_of_getLsbD_eq; intro i hi
    simp only [w, encodeB, BitVec.getLsbD_append, BitVec.getLsbD_extractLsb']
    interval_cases i <;> simp [h0]
  show (w.extractLsb' 31 1 ++ w.extractLsb' 7 1 ++ w.extractLsb' 25 6 ++ w.extractLsb' 8 4 ++ 0#1 : BitVec 13).signExtend 32 = imm
  rw [hx]
  exact signExtend_low imm 13 (by decide) (by omega) (by omega)

theorem immJ_encodeJ (o : BitVec 7) (rd : RegIdx) (imm : Word) (h : fitsJ imm = true) :
    immJ (encodeJ o rd imm) = imm := by
  simp only [fitsJ, decide_eq_true_eq] at h
  have h0 := bit0_of_even imm h.2.2
  let w := encodeJ o rd imm
  have hx : (w.extractLsb' 31 1 ++ w.extractLsb' 12 8 ++ w.extractLsb' 20 1 ++ w.extractLsb' 21 10 ++ 0#1 : BitVec 21) =
      imm.extractLsb' 0 21 := by
    apply BitVec.eq_of_getLsbD_eq; intro i hi
    simp only [w, encodeJ, BitVec.getLsbD_append, BitVec.getLsbD_extractLsb']
    interval_cases i <;> simp [h0]
  show (w.extractLsb' 31 1 ++ w.extractLsb' 12 8 ++ w.extractLsb' 20 1 ++ w.extractLsb' 21 10 ++ 0#1 : BitVec 21).signExtend 32 = imm
  rw [hx]
  exact signExtend_low imm 21 (by decide) (by omega) (by omega)

/-! ### What the decoder answers -/

/-- No pair of the table matches (R70). -/
theorem opOf_eq_none (w : Word) : opOf w = none ↔ ∀ r ∈ opcodeTable, w &&& r.mask ≠ r.pattern := by
  simp [opOf, Row.accepts]

/-- An operation comes from a pair that the word satisfies (R61). -/
theorem opOf_row {w : Word} {o : Op} (h : opOf w = some o) : ∃ r ∈ opcodeTable, r.op = o ∧ w &&& r.mask = r.pattern := by
  simp only [opOf, Option.map_eq_some_iff] at h
  obtain ⟨r, h, rfl⟩ := h
  exact ⟨r, List.mem_of_find?_eq_some h, rfl, by simpa [Row.accepts] using List.find?_some h⟩

@[simp] theorem operandsOf_op (o : Op) (w : Word) : (operandsOf o w).op = o := by cases o <;> rfl

theorem decode_of_op {w : Word} {o : Op} (h : opOf w = some o) : decode w = .ok (operandsOf o w) := by simp [decode, h]

/-- A decoded word carries its instruction's operation and the operands of its format. -/
theorem decode_ok {w : Word} {i : Instr} (h : decode w = .ok i) : opOf w = some i.op ∧ i = operandsOf i.op w := by
  unfold decode at h
  cases hf : opOf w with
  | none => rw [hf] at h; cases h
  | some q => rw [hf] at h; cases h; rw [operandsOf_op]; exact ⟨rfl, rfl⟩

theorem decode_rejected (w : Word) (r : DecodeReject) : decode w = .rejected r ↔ opOf w = none ∧ rejectReason w = r := by
  unfold decode
  cases opOf w <;> simp

/-! ### A word rebuilt from its own fields (R52 to R57) -/

theorem encodeU_fields (w : Word) : encodeU (opcodeOf w) (rdOf w) (immU w) = w := by
  apply BitVec.eq_of_getLsbD_eq; intro i hi
  simp only [encodeU, opcodeOf, rdOf, immU, BitVec.getLsbD_append, BitVec.getLsbD_extractLsb']
  interval_cases i <;> simp

theorem encodeI_fields (w : Word) : encodeI (opcodeOf w) (funct3Of w) (rdOf w) (rs1Of w) (immI w) = w := by
  apply BitVec.eq_of_getLsbD_eq; intro i hi
  simp only [encodeI, opcodeOf, rdOf, rs1Of, funct3Of, immI, BitVec.getLsbD_append, BitVec.getLsbD_extractLsb',
    BitVec.getLsbD_signExtend]
  interval_cases i <;> simp

theorem encodeS_fields (w : Word) : encodeS (opcodeOf w) (funct3Of w) (rs1Of w) (rs2Of w) (immS w) = w := by
  apply BitVec.eq_of_getLsbD_eq; intro i hi
  simp only [encodeS, opcodeOf, rs2Of, rs1Of, funct3Of, immS, BitVec.getLsbD_append, BitVec.getLsbD_extractLsb',
    BitVec.getLsbD_signExtend]
  interval_cases i <;> simp

theorem encodeB_fields (w : Word) : encodeB (opcodeOf w) (funct3Of w) (rs1Of w) (rs2Of w) (immB w) = w := by
  apply BitVec.eq_of_getLsbD_eq; intro i hi
  simp only [encodeB, opcodeOf, rs2Of, rs1Of, funct3Of, immB, BitVec.getLsbD_append, BitVec.getLsbD_extractLsb',
    BitVec.getLsbD_signExtend]
  interval_cases i <;> simp

theorem encodeJ_fields (w : Word) : encodeJ (opcodeOf w) (rdOf w) (immJ w) = w := by
  apply BitVec.eq_of_getLsbD_eq; intro i hi
  simp only [encodeJ, opcodeOf, rdOf, immJ, BitVec.getLsbD_append, BitVec.getLsbD_extractLsb', BitVec.getLsbD_signExtend]
  interval_cases i <;> simp

theorem encodeR_fields (w : Word) : encodeR (opcodeOf w) (funct7Of w) (funct3Of w) (rdOf w) (rs1Of w) (rs2Of w) = w := by
  apply BitVec.eq_of_getLsbD_eq; intro i hi
  simp only [encodeR, opcodeOf, rdOf, rs1Of, rs2Of, funct3Of, funct7Of, BitVec.getLsbD_append, BitVec.getLsbD_extractLsb']
  interval_cases i <;> simp

/-! ### The range of a decoded immediate (R52 to R56) -/

theorem signExtend_range (n : Nat) (hn : n ≤ 32) (x : BitVec n) :
    -(2 ^ n : Int) ≤ 2 * (x.signExtend 32).toInt ∧ 2 * (x.signExtend 32).toInt < 2 ^ n := by
  rw [BitVec.toInt_signExtend_of_le hn]
  exact ⟨by exact_mod_cast BitVec.le_two_mul_toInt (x := x), by exact_mod_cast BitVec.two_mul_toInt_lt (x := x)⟩

theorem immU_fits (w : Word) : fitsU (immU w) = true := by
  have h : (immU w).extractLsb' 0 12 = 0#12 := by
    apply BitVec.eq_of_getLsbD_eq; intro i hi
    simp only [immU, BitVec.getLsbD_append, BitVec.getLsbD_extractLsb']
    interval_cases i <;> simp
  have := congrArg BitVec.toNat h
  simp [BitVec.extractLsb'_toNat] at this
  simp only [fitsU, decide_eq_true_eq]; omega

theorem immI_fits (w : Word) : fits12 (immI w) = true := by
  have h := signExtend_range 12 (by decide) (w.extractLsb' 20 12)
  change -(2 ^ 12 : Int) ≤ 2 * (immI w).toInt ∧ 2 * (immI w).toInt < 2 ^ 12 at h
  unfold fits12; norm_num at h; apply decide_eq_true; omega

theorem immS_fits (w : Word) : fits12 (immS w) = true := by
  have h := signExtend_range 12 (by decide) (w.extractLsb' 25 7 ++ w.extractLsb' 7 5 : BitVec 12)
  change -(2 ^ 12 : Int) ≤ 2 * (immS w).toInt ∧ 2 * (immS w).toInt < 2 ^ 12 at h
  unfold fits12; norm_num at h; apply decide_eq_true; omega

/-- A B offset is even (R55). -/
theorem immB_even (w : Word) : (immB w).toNat % 2 = 0 := by
  have h : (immB w).getLsbD 0 = false := by
    simp only [immB, BitVec.getLsbD_signExtend, BitVec.getLsbD_append]; simp
  simpa [BitVec.getLsbD, Nat.testBit_zero] using h

/-- A J offset is even (R56). -/
theorem immJ_even (w : Word) : (immJ w).toNat % 2 = 0 := by
  have h : (immJ w).getLsbD 0 = false := by
    simp only [immJ, BitVec.getLsbD_signExtend, BitVec.getLsbD_append]; simp
  simpa [BitVec.getLsbD, Nat.testBit_zero] using h

theorem toInt_even {x : Word} (h : x.toNat % 2 = 0) : x.toInt % 2 = 0 := by
  rw [BitVec.toInt_eq_toNat_cond]; split <;> omega

theorem immB_fits (w : Word) : fitsB (immB w) = true := by
  have h := signExtend_range 13 (by decide)
    (w.extractLsb' 31 1 ++ w.extractLsb' 7 1 ++ w.extractLsb' 25 6 ++ w.extractLsb' 8 4 ++ 0#1 : BitVec 13)
  change -(2 ^ 13 : Int) ≤ 2 * (immB w).toInt ∧ 2 * (immB w).toInt < 2 ^ 13 at h
  have he := toInt_even (immB_even w)
  unfold fitsB; norm_num at h; apply decide_eq_true; omega

theorem immJ_fits (w : Word) : fitsJ (immJ w) = true := by
  have h := signExtend_range 21 (by decide)
    (w.extractLsb' 31 1 ++ w.extractLsb' 12 8 ++ w.extractLsb' 20 1 ++ w.extractLsb' 21 10 ++ 0#1 : BitVec 21)
  change -(2 ^ 21 : Int) ≤ 2 * (immJ w).toInt ∧ 2 * (immJ w).toInt < 2 ^ 21 at h
  have he := toInt_even (immJ_even w)
  unfold fitsJ; norm_num at h; apply decide_eq_true; omega

end Sys2Proof
end

