-- ==== Sys2Proof/Laws/State.lean ====
section
/-! SUPPORT. One lemma per field per update of the state, and the register-file laws (R12, R13). -/

namespace Sys2Proof.Machine

section
variable (s : State) (r q : RegIdx) (v w : Word) (k : FaultKind) (a : Nat)

@[simp] theorem setPc_pc : (s.setPc v).pc = v := rfl
@[simp] theorem setPc_regs : (s.setPc v).regs = s.regs := rfl
@[simp] theorem setPc_mem : (s.setPc v).mem = s.mem := rfl
@[simp] theorem setPc_runState : (s.setPc v).runState = s.runState := rfl
@[simp] theorem setPc_fault : (s.setPc v).fault = s.fault := rfl
@[simp] theorem setPc_cfg : (s.setPc v).cfg = s.cfg := rfl
@[simp] theorem setPc_readReg : (s.setPc v).readReg r = s.readReg r := rfl
@[simp] theorem setPc_byteAt : (s.setPc v).byteAt a = s.byteAt a := rfl

@[simp] theorem advancePc_pc : s.advancePc.pc = sequential s.pc := rfl
@[simp] theorem advancePc_regs : s.advancePc.regs = s.regs := rfl
@[simp] theorem advancePc_mem : s.advancePc.mem = s.mem := rfl
@[simp] theorem advancePc_runState : s.advancePc.runState = s.runState := rfl
@[simp] theorem advancePc_fault : s.advancePc.fault = s.fault := rfl
@[simp] theorem advancePc_cfg : s.advancePc.cfg = s.cfg := rfl
@[simp] theorem advancePc_readReg : s.advancePc.readReg r = s.readReg r := rfl
@[simp] theorem advancePc_byteAt : s.advancePc.byteAt a = s.byteAt a := rfl

@[simp] theorem takeFault_pc : (s.takeFault k).pc = s.pc := rfl
@[simp] theorem takeFault_regs : (s.takeFault k).regs = s.regs := rfl
@[simp] theorem takeFault_mem : (s.takeFault k).mem = s.mem := rfl
@[simp] theorem takeFault_runState : (s.takeFault k).runState = .haltedOnFault := rfl
@[simp] theorem takeFault_fault : (s.takeFault k).fault = some k := rfl
@[simp] theorem takeFault_cfg : (s.takeFault k).cfg = s.cfg := rfl
@[simp] theorem takeFault_readReg : (s.takeFault k).readReg r = s.readReg r := rfl
@[simp] theorem takeFault_byteAt : (s.takeFault k).byteAt a = s.byteAt a := rfl

@[simp] theorem explicitReset_pc : s.explicitReset.pc = 0 := rfl
@[simp] theorem explicitReset_mem : s.explicitReset.mem = s.mem := rfl
@[simp] theorem explicitReset_runState : s.explicitReset.runState = .running := rfl
@[simp] theorem explicitReset_fault : s.explicitReset.fault = none := rfl
@[simp] theorem explicitReset_cfg : s.explicitReset.cfg = s.cfg := rfl

@[simp] theorem writeReg_pc : (s.writeReg r v).pc = s.pc := by unfold State.writeReg; split <;> rfl
@[simp] theorem writeReg_mem : (s.writeReg r v).mem = s.mem := by unfold State.writeReg; split <;> rfl
@[simp] theorem writeReg_runState : (s.writeReg r v).runState = s.runState := by
  unfold State.writeReg; split <;> rfl
@[simp] theorem writeReg_fault : (s.writeReg r v).fault = s.fault := by unfold State.writeReg; split <;> rfl
@[simp] theorem writeReg_cfg : (s.writeReg r v).cfg = s.cfg := by unfold State.writeReg; split <;> rfl
@[simp] theorem writeReg_byteAt : (s.writeReg r v).byteAt a = s.byteAt a := by
  unfold State.byteAt; rw [writeReg_mem]

/-- R13: a write of register 0 is discarded. -/
@[simp] theorem writeReg_zero : s.writeReg 0#5 v = s := rfl

/-- R12: register 0 reads 0. -/
@[simp] theorem readReg_zero : s.readReg 0#5 = 0#32 := rfl

theorem writeReg_setPc : (s.setPc w).writeReg r v = (s.writeReg r v).setPc w := by
  unfold State.writeReg; split <;> rfl

end

/-- R12, R13: what a read sees after a write. -/
theorem readReg_writeReg (s : State) (r q : RegIdx) (v : Word) :
    (s.writeReg r v).readReg q = if q = r ∧ r ≠ 0#5 then v else s.readReg q := by
  unfold State.writeReg State.readReg
  by_cases hr : r = 0#5
  · simp [hr]
  · by_cases hq : q = r
    · subst hq; simp [hr]
    · have : r.toNat ≠ q.toNat := fun h => hq (BitVec.eq_of_toNat_eq h.symm)
      by_cases hq0 : q = 0#5 <;> simp_all [Vector.getElem_set_ne]

theorem readReg_writeReg_same (s : State) (r : RegIdx) (v : Word) (h : r ≠ 0#5) :
    (s.writeReg r v).readReg r = v := by simp [readReg_writeReg, h]

theorem readReg_writeReg_other (s : State) (r q : RegIdx) (v : Word) (h : q ≠ r) :
    (s.writeReg r v).readReg q = s.readReg q := by simp [readReg_writeReg, h]

/-- The stored slot of register 0 is never written (R13). -/
@[simp] theorem writeReg_slotZero (s : State) (r : RegIdx) (v : Word) : (s.writeReg r v).regs[0] = s.regs[0] := by
  unfold State.writeReg
  split
  · rfl
  · next h =>
    have : r.toNat ≠ 0 := fun e => h (BitVec.eq_of_toNat_eq e)
    simp [Vector.getElem_set_ne, this]

end Sys2Proof.Machine
end

