-- ==== Sys2Proof/Laws/Memory.lean ====
section
/-! SUPPORT. Memory: every operation keeps the canonical form, and a read after a write. -/

namespace Sys2Proof.Machine

namespace Memory

theorem wfFrom_mono {lo lo' : Nat} {m : Memory} (h : wfFrom lo m = true) (hle : lo' ≤ lo) : wfFrom lo' m = true := by
  cases m with
  | nil => rfl
  | cons c m =>
    simp only [wfFrom, Bool.and_eq_true, decide_eq_true_eq] at h ⊢
    exact ⟨⟨by omega, h.1.2⟩, h.2⟩

/-- An address below the first pair reads as unlisted. -/
theorem read_below {lo a : Nat} {m : Memory} (h : wfFrom lo m = true) (ha : a < lo) : read m a = memFill := by
  induction m generalizing lo with
  | nil => rfl
  | cons c m ih =>
    simp only [wfFrom, Bool.and_eq_true, decide_eq_true_eq] at h
    have : a ≠ c.1 := by omega
    simp only [read, this, if_false]
    exact ih h.2 (by omega)

theorem wfFrom_write {lo a : Nat} {m : Memory} (v : Byte) (h : wfFrom lo m = true) (ha : lo ≤ a) :
    wfFrom lo (write m a v) = true := by
  induction m generalizing lo with
  | nil => unfold write; split <;> simp_all [wfFrom]
  | cons c m ih =>
    simp only [wfFrom, Bool.and_eq_true, decide_eq_true_eq] at h
    unfold write
    split
    · split
      · simp_all [wfFrom]
      · simp only [wfFrom, Bool.and_eq_true, decide_eq_true_eq]; refine ⟨⟨ha, ‹_›⟩, ⟨by omega, h.1.2⟩, h.2⟩
    · split
      · split
        · exact wfFrom_mono h.2 (by omega)
        · simp only [wfFrom, Bool.and_eq_true, decide_eq_true_eq]; subst_vars; exact ⟨⟨ha, ‹_›⟩, h.2⟩
      · simp only [wfFrom, Bool.and_eq_true, decide_eq_true_eq]; exact ⟨h.1, ih h.2 (by omega)⟩

/-- A write keeps the canonical form. -/
theorem wf_write {m : Memory} (a : Nat) (v : Byte) (h : m.wf = true) : (m.write a v).wf = true :=
  wfFrom_write v h (Nat.zero_le a)

theorem read_write_from {lo : Nat} {m : Memory} (a b : Nat) (v : Byte) (h : wfFrom lo m = true) :
    read (write m a v) b = if b = a then v else read m b := by
  induction m generalizing lo with
  | nil => unfold write; split <;> simp_all [read]
  | cons c m ih =>
    simp only [wfFrom, Bool.and_eq_true, decide_eq_true_eq] at h
    unfold write
    split
    · next hlt =>
      split
      · next hv =>
        by_cases hb : b = a
        · have hne : a ≠ c.1 := by omega
          rw [if_pos hb, hb, hv]; simp only [read, hne, if_false]; exact read_below h.2 (by omega)
        · simp [hb]
      · simp [read]
    · split
      · next ha =>
        split
        · next hv =>
          by_cases hb : b = a
          · rw [if_pos hb, hb, hv]; exact read_below h.2 (by omega)
          · have : b ≠ c.1 := by omega
            simp [read, hb, this]
        · subst ha; simp only [read]; split <;> rfl
      · next ha =>
        simp only [read, ih h.2]
        by_cases hb : b = c.1
        · have : b ≠ a := by omega
          rw [if_pos hb, if_pos hb, if_neg this]
        · rw [if_neg hb, if_neg hb]

/-- A read after a write: the byte written there, every other byte as before. -/
theorem read_write {m : Memory} (a b : Nat) (v : Byte) (h : m.wf = true) :
    (m.write a v).read b = if b = a then v else m.read b := read_write_from a b v h

theorem wfFrom_ofImage (image : Nat → Byte) (n base : Nat) : wfFrom base (ofImage image base n) = true := by
  induction n generalizing base with
  | zero => rfl
  | succ n ih =>
    unfold ofImage
    split
    · exact wfFrom_mono (ih (base + 1)) (by omega)
    · next h => simp [wfFrom, h, ih]

/-- A launch image is canonical. -/
theorem wf_ofImage (image : Nat → Byte) (n : Nat) : (ofImage image 0 n).wf = true := wfFrom_ofImage image n 0

/-- A launch image reads as the image on its addresses and as unlisted elsewhere. -/
theorem read_ofImage (image : Nat → Byte) (n base a : Nat) :
    (ofImage image base n).read a = if base ≤ a ∧ a < base + n then image a else memFill := by
  induction n generalizing base with
  | zero => have : ¬ (base ≤ a ∧ a < base + 0) := by omega
            rw [if_neg this]; rfl
  | succ n ih =>
    unfold ofImage
    split
    · next h =>
      rw [ih]
      by_cases ha : a = base
      · subst ha; simp [h]
      · have : (base + 1 ≤ a ∧ a < base + 1 + n) ↔ (base ≤ a ∧ a < base + (n + 1)) := by omega
        rw [if_congr this rfl rfl]
    · simp only [read, ih]
      by_cases ha : a = base
      · subst ha; simp
      · have : (base + 1 ≤ a ∧ a < base + 1 + n) ↔ (base ≤ a ∧ a < base + (n + 1)) := by omega
        rw [if_neg ha, if_congr this rfl rfl]

end Memory

section
variable (s : State) (addr : Word) (w : Width) (v : Word)

@[simp] theorem writeBytes_regs : (s.writeBytes addr w v).regs = s.regs := by cases w <;> rfl
@[simp] theorem writeBytes_pc : (s.writeBytes addr w v).pc = s.pc := by cases w <;> rfl
@[simp] theorem writeBytes_runState : (s.writeBytes addr w v).runState = s.runState := by cases w <;> rfl
@[simp] theorem writeBytes_fault : (s.writeBytes addr w v).fault = s.fault := by cases w <;> rfl
@[simp] theorem writeBytes_cfg : (s.writeBytes addr w v).cfg = s.cfg := by cases w <;> rfl
@[simp] theorem writeBytes_readReg (r : RegIdx) : (s.writeBytes addr w v).readReg r = s.readReg r := by cases w <;> rfl
@[simp] theorem writeBytes_memSize : (s.writeBytes addr w v).memSize = s.memSize := by cases w <;> rfl

/-- A store keeps the canonical form. -/
theorem writeBytes_wf (h : s.mem.wf = true) : (s.writeBytes addr w v).mem.wf = true := by
  cases w <;> simp only [State.writeBytes] <;> repeat (first | exact h | apply Memory.wf_write)

end

/-- The byte a stored value puts at each place of the access, most-significant first (R34). -/
def storedByte (w : Width) (v : Word) (k : Nat) : Byte := v.extractLsb' (8 * (w.bytes - 1 - k)) 8

/-- R34: every byte after a store: those of the access hold the value's bytes, every other one is as before. -/
theorem byteAt_writeBytes (s : State) (addr : Word) (w : Width) (v : Word) (h : s.mem.wf = true) (a : Nat) :
    (s.writeBytes addr w v).byteAt a =
      if addr.toNat ≤ a ∧ a < addr.toNat + w.bytes then storedByte w v (a - addr.toNat) else s.byteAt a := by
  cases w with
  | byte =>
    simp only [State.writeBytes, State.byteAt, Memory.read_write _ _ _ h]
    by_cases h0 : a = addr.toNat
    · subst h0; simp [storedByte, Width.bytes]
    · have : ¬ (addr.toNat ≤ a ∧ a < addr.toNat + Width.byte.bytes) := by simp only [Width.bytes]; omega
      rw [if_neg h0, if_neg this]
  | half =>
    simp only [State.writeBytes, State.byteAt, Memory.read_write _ _ _ (Memory.wf_write _ _ h), Memory.read_write _ _ _ h]
    by_cases h1 : a = addr.toNat + 1
    · subst h1; simp [storedByte, Width.bytes]
    · by_cases h0 : a = addr.toNat
      · subst h0; simp [storedByte, Width.bytes]
      · have : ¬ (addr.toNat ≤ a ∧ a < addr.toNat + Width.half.bytes) := by simp only [Width.bytes]; omega
        rw [if_neg h1, if_neg h0, if_neg this]
  | word =>
    simp only [State.writeBytes, State.byteAt, Memory.read_write _ _ _ h, Memory.read_write _ _ _ (Memory.wf_write _ _ h),
      Memory.read_write _ _ _ (Memory.wf_write _ _ (Memory.wf_write _ _ h)),
      Memory.read_write _ _ _ (Memory.wf_write _ _ (Memory.wf_write _ _ (Memory.wf_write _ _ h)))]
    by_cases h3 : a = addr.toNat + 3
    · subst h3; simp [storedByte, Width.bytes]
    · by_cases h2 : a = addr.toNat + 2
      · subst h2; simp [storedByte, Width.bytes]
      · by_cases h1 : a = addr.toNat + 1
        · subst h1; simp [storedByte, Width.bytes]
        · by_cases h0 : a = addr.toNat
          · subst h0; simp [storedByte, Width.bytes]
          · have : ¬ (addr.toNat ≤ a ∧ a < addr.toNat + Width.word.bytes) := by simp only [Width.bytes]; omega
            rw [if_neg h3, if_neg h2, if_neg h1, if_neg h0, if_neg this]

/-- R33, R34: what a read of the same width at the same place sees of a stored value: its low bytes, zero-extended. -/
theorem readBytes_writeBytes (s : State) (addr : Word) (w : Width) (v : Word) (h : s.mem.wf = true) :
    (s.writeBytes addr w v).readBytes addr w =
      match w with
      | .byte => (v.extractLsb' 0 8).setWidth 32
      | .half => (v.extractLsb' 0 16).setWidth 32
      | .word => v := by
  have hb (k : Nat) (hk : k < w.bytes) : (s.writeBytes addr w v).byteAt (addr.toNat + k) = storedByte w v k := by
    rw [byteAt_writeBytes _ _ _ _ h, if_pos (by omega), Nat.add_sub_cancel_left]
  cases w with
  | byte => simp only [State.readBytes, hb 0 (by decide)]; rfl
  | half =>
    simp only [State.readBytes, hb 0 (by decide), hb 1 (by decide)]
    apply BitVec.eq_of_getLsbD_eq; intro i hi
    simp only [storedByte, Width.bytes, BitVec.getLsbD_append, BitVec.getLsbD_extractLsb', BitVec.getLsbD_setWidth]
    interval_cases i <;> simp
  | word =>
    simp only [State.readBytes, hb 0 (by decide), hb 1 (by decide), hb 2 (by decide), hb 3 (by decide)]
    apply BitVec.eq_of_getLsbD_eq; intro i hi
    simp only [storedByte, Width.bytes, BitVec.getLsbD_append, BitVec.getLsbD_extractLsb']
    interval_cases i <;> simp

theorem Width.bytes_pos (w : Width) : 0 < w.bytes := by cases w <;> decide

/-- R35: the bounds check fails exactly when the last byte lies at or past MEM_SIZE. -/
theorem pastEnd_iff (s : State) (addr : Word) (w : Width) :
    s.pastEnd addr w = true ↔ s.memSize < addr.toNat + w.bytes := by
  have := w.bytes_pos
  simp only [State.pastEnd, decide_eq_true_eq]; omega

theorem memRead_of_inRange (s : State) (addr : Word) (w : Width) (h : addr.toNat + w.bytes ≤ s.memSize) :
    s.memRead addr w = some (s.readBytes addr w) := by
  have : s.pastEnd addr w = false := by
    rw [Bool.eq_false_iff]; intro hp; rw [pastEnd_iff] at hp; omega
  simp [State.memRead, this]

theorem memWrite_of_inRange (s : State) (addr : Word) (w : Width) (v : Word) (h : addr.toNat + w.bytes ≤ s.memSize) :
    s.memWrite addr w v = some (s.writeBytes addr w v) := by
  have : s.pastEnd addr w = false := by
    rw [Bool.eq_false_iff]; intro hp; rw [pastEnd_iff] at hp; omega
  simp [State.memWrite, this]

theorem memRead_of_outOfRange (s : State) (addr : Word) (w : Width) (h : s.memSize < addr.toNat + w.bytes) :
    s.memRead addr w = none := by
  simp [State.memRead, (pastEnd_iff s addr w).2 h]

theorem memWrite_of_outOfRange (s : State) (addr : Word) (w : Width) (v : Word) (h : s.memSize < addr.toNat + w.bytes) :
    s.memWrite addr w v = none := by
  simp [State.memWrite, (pastEnd_iff s addr w).2 h]

/-- What a memory write can answer (R34, R35). -/
theorem memWrite_cases {s t : State} {addr : Word} {w : Width} {v : Word} (h : s.memWrite addr w v = some t) :
    addr.toNat + w.bytes ≤ s.memSize ∧ t = s.writeBytes addr w v := by
  by_cases hle : addr.toNat + w.bytes ≤ s.memSize
  · rw [memWrite_of_inRange _ _ _ _ hle] at h
    exact ⟨hle, (Option.some.inj h).symm⟩
  · rw [memWrite_of_outOfRange _ _ _ _ (by omega)] at h
    cases h

end Sys2Proof.Machine
end

