-- ==== Sys2Proof/Laws/Handlers.lean ====
section
/-! SUPPORT. One lemma per shared handler: everything it can answer; and from them what `exec` can answer. -/

namespace Sys2Proof.Machine

/-- A load faults past the end of memory (R130, R35), otherwise writes the extended value. -/
theorem load_eq (w : Width) (e : LoadExt) (rd rs1 : RegIdx) (imm : Word) (s : State) :
    load w e rd rs1 imm s =
      if s.memSize < (effectiveAddress (s.readReg rs1) imm).toNat + w.bytes then .next (s.takeFault .outOfRange)
      else .next ((s.writeReg rd (extendLoad w e (s.readBytes (effectiveAddress (s.readReg rs1) imm) w))).advancePc) := by
  unfold load
  split_ifs with h
  · rw [memRead_of_outOfRange _ _ _ h]; rfl
  · rw [memRead_of_inRange _ _ _ (by omega)]; rfl

/-- A store faults past the end of memory (R140, R35), otherwise stores the low bytes. -/
theorem store_eq (w : Width) (rs1 rs2 : RegIdx) (imm : Word) (s : State) :
    store w rs1 rs2 imm s =
      if s.memSize < (effectiveAddress (s.readReg rs1) imm).toNat + w.bytes then .next (s.takeFault .outOfRange)
      else .next (s.writeBytes (effectiveAddress (s.readReg rs1) imm) w (s.readReg rs2)).advancePc := by
  unfold store
  split_ifs with h
  · rw [memWrite_of_outOfRange _ _ _ _ h]; rfl
  · rw [memWrite_of_inRange _ _ _ _ (by omega)]

/-- What AUIPC answers, in either mode (R101, R102). -/
theorem execAuipc_eq (rd : RegIdx) (imm : Word) (s : State) :
    ∃ v pc', execAuipc rd imm s = .next ((s.writeReg rd v).setPc pc') := by
  unfold execAuipc
  split
  · exact ⟨pcRelative s.pc imm, sequential s.pc, by simp [finishWith, State.advancePc]⟩
  · exact ⟨_, _, rfl⟩

/-- The four shapes of what an instruction's handler answers. -/
inductive Effect (i : Instr) (s t : State) : Prop where
  /-- a fault: a data access past the end, or the FENCE and SYSTEM groups -/
  | dataFault (addr : Word) (w : Width) (access : dataAccess i s = some (addr, w))
      (past : s.memSize < addr.toNat + w.bytes) (after : t = s.takeFault .outOfRange)
  | groupFault (group : isFenceOrSystem i = true) (after : t = s.takeFault .illegalInstruction)
  /-- a result in the named destination register, and a next pc -/
  | result (rd : RegIdx) (v pc' : Word) (dest : destOf i = some rd) (notStore : isStore i = false)
      (notGroup : isFenceOrSystem i = false)
      (inRange : ∀ addr w, dataAccess i s = some (addr, w) → addr.toNat + w.bytes ≤ s.memSize)
      (after : t = (s.writeReg rd v).setPc pc')
  /-- a next pc alone -/
  | goto (pc' : Word) (dest : destOf i = none) (notStore : isStore i = false) (notGroup : isFenceOrSystem i = false)
      (access : dataAccess i s = none) (after : t = s.setPc pc')
  /-- a store -/
  | stored (addr : Word) (w : Width) (v : Word) (dest : destOf i = none) (isSt : isStore i = true)
      (access : dataAccess i s = some (addr, w)) (inRange : addr.toNat + w.bytes ≤ s.memSize)
      (after : t = (s.writeBytes addr w v).advancePc)

theorem effect_of_load {i : Instr} {s t : State} {w : Width} {e : LoadExt} {rd rs1 : RegIdx} {imm : Word}
    (hd : destOf i = some rd) (hs : isStore i = false) (hg : isFenceOrSystem i = false)
    (ha : dataAccess i s = some (effectiveAddress (s.readReg rs1) imm, w)) (h : load w e rd rs1 imm s = .next t) :
    Effect i s t := by
  rw [load_eq] at h
  split_ifs at h with hp <;> cases h
  · exact .dataFault _ _ ha hp rfl
  · refine .result rd (extendLoad w e (s.readBytes (effectiveAddress (s.readReg rs1) imm) w)) (sequential s.pc) hd hs hg ?_ ?_
    · intro addr w' h'; rw [ha] at h'; cases h'; omega
    · simp [State.advancePc]

theorem effect_of_store {i : Instr} {s t : State} {w : Width} {rs1 rs2 : RegIdx} {imm : Word}
    (hd : destOf i = none) (hs : isStore i = true)
    (ha : dataAccess i s = some (effectiveAddress (s.readReg rs1) imm, w)) (h : store w rs1 rs2 imm s = .next t) :
    Effect i s t := by
  rw [store_eq] at h
  split_ifs at h with hp <;> cases h
  · exact .dataFault _ _ ha hp rfl
  · exact .stored _ _ _ hd hs ha (by omega) rfl

theorem effect_of_result {i : Instr} {s t : State} (rd : RegIdx) (v pc' : Word) (hd : destOf i = some rd)
    (hs : isStore i = false) (hg : isFenceOrSystem i = false) (ha : dataAccess i s = none)
    (h : (.next ((s.writeReg rd v).setPc pc') : Result) = .next t) : Effect i s t := by
  cases h
  exact .result rd v pc' hd hs hg (by simp [ha]) rfl

theorem effect_of_finish {i : Instr} {s t : State} {rd : RegIdx} {v : Word} (hd : destOf i = some rd)
    (hs : isStore i = false) (hg : isFenceOrSystem i = false) (ha : dataAccess i s = none)
    (h : finishWith rd v s = .next t) : Effect i s t := by
  refine effect_of_result rd v (sequential s.pc) hd hs hg ha ?_
  rw [← h]; simp [finishWith, State.advancePc]

theorem effect_of_goto {i : Instr} {s t : State} {c : BranchCond} {rs1 rs2 : RegIdx} {imm : Word} (hd : destOf i = none)
    (hs : isStore i = false) (hg : isFenceOrSystem i = false) (ha : dataAccess i s = none)
    (h : branch c rs1 rs2 imm s = .next t) : Effect i s t := by
  cases h
  exact .goto _ hd hs hg ha rfl

/-- Everything `exec` can answer when it answers a next state. -/
theorem exec_effect (i : Instr) (s t : State) (h : exec i s = .next t) : Effect i s t := by
  cases i with
  | lui rd imm => exact effect_of_finish rfl rfl rfl rfl h
  | auipc rd imm =>
    obtain ⟨v, pc', he⟩ := execAuipc_eq rd imm s
    exact effect_of_result rd v pc' rfl rfl rfl rfl (he.symm.trans h)
  | jal rd imm => exact effect_of_result rd _ _ rfl rfl rfl rfl h
  | jalr rd rs1 imm => exact effect_of_result rd _ _ rfl rfl rfl rfl h
  | beq rs1 rs2 imm | bne rs1 rs2 imm | blt rs1 rs2 imm | bge rs1 rs2 imm | bltu rs1 rs2 imm | bgeu rs1 rs2 imm =>
    exact effect_of_goto rfl rfl rfl rfl h
  | lb rd rs1 imm | lh rd rs1 imm | lw rd rs1 imm | lbu rd rs1 imm | lhu rd rs1 imm =>
    exact effect_of_load rfl rfl rfl rfl h
  | sb rs1 rs2 imm | sh rs1 rs2 imm | sw rs1 rs2 imm => exact effect_of_store rfl rfl rfl h
  | addi rd rs1 imm | slti rd rs1 imm | sltiu rd rs1 imm | xori rd rs1 imm | ori rd rs1 imm | andi rd rs1 imm =>
    exact effect_of_finish rfl rfl rfl rfl h
  | slli rd rs1 sh | srli rd rs1 sh | srai rd rs1 sh => exact effect_of_finish rfl rfl rfl rfl h
  | add rd a b | sub rd a b | sll rd a b | slt rd a b | sltu rd a b | xor rd a b | srl rd a b | sra rd a b | or rd a b
  | and rd a b => exact effect_of_finish rfl rfl rfl rfl h
  | fence => cases h; exact .groupFault rfl rfl
  | system => cases h; exact .groupFault rfl rfl

/-- No handler answers a stop: `exec` is a next state for every instruction and state. -/
theorem exec_next (i : Instr) (s : State) : ∃ t, exec i s = .next t := by
  cases i with
  | auipc rd imm => obtain ⟨v, pc', he⟩ := execAuipc_eq rd imm s; exact ⟨_, he⟩
  | lb rd rs1 imm | lh rd rs1 imm | lw rd rs1 imm | lbu rd rs1 imm | lhu rd rs1 imm =>
    simp only [exec, execLb, execLh, execLw, execLbu, execLhu, load_eq]; split_ifs <;> exact ⟨_, rfl⟩
  | sb rs1 rs2 imm | sh rs1 rs2 imm | sw rs1 rs2 imm =>
    simp only [exec, execSb, execSh, execSw, store_eq]; split_ifs <;> exact ⟨_, rfl⟩
  | _ => exact ⟨_, rfl⟩

/-- The register write of a result, read by register. -/
theorem wroteReg_writeReg (s : State) (rd : RegIdx) (v : Word) : s.WroteReg (s.writeReg rd v) rd v where
  dest h := readReg_writeReg_same s rd v h
  zero := readReg_zero _
  others r h := readReg_writeReg_other s rd r v h

/-- A register write and a pc are a register result and nothing else. -/
theorem regResult_writeReg (s : State) (rd : RegIdx) (v pc' : Word) :
    s.RegResult ((s.writeReg rd v).setPc pc') rd v pc' where
  regs := ⟨(wroteReg_writeReg s rd v).dest, rfl, (wroteReg_writeReg s rd v).others⟩
  pc := rfl
  memory a := by simp
  control := ⟨by simp, by simp, by simp⟩

/-- Taking a fault changes the run state and the latch alone (R189). -/
theorem halted_takeFault (s : State) (k : FaultKind) : s.Halted (s.takeFault k) k :=
  ⟨rfl, rfl, fun _ => rfl, rfl, fun _ => rfl, rfl⟩

/-! ### The step -/

/-- What a running machine's step can do (R80, R191). -/
theorem step_cases {s t : State} (h : step s = .next t) :
    s.runState = .running ∧
    ((s.fetchWord = none ∧ t = s.takeFault .outOfRange) ∨
     (∃ w r, s.fetchWord = some w ∧ decode w = .rejected r ∧ t = s.takeFault .illegalInstruction) ∨
     (∃ w i, s.fetchWord = some w ∧ decode w = .ok i ∧ exec i s = .next t)) := by
  unfold step at h
  split at h
  · cases h
  · next hr =>
    refine ⟨hr, ?_⟩
    split at h
    · next hf => cases h; exact .inl ⟨hf, rfl⟩
    · next w hf =>
      split at h
      · next r hd => cases h; exact .inr (.inl ⟨w, r, hf, hd, rfl⟩)
      · next i hd => exact .inr (.inr ⟨w, i, hf, hd, h⟩)

end Sys2Proof.Machine
end

