-- ==== Sys2Proof/Laws/PerInstr.lean ====
section
/-! SUPPORT. Statements about every instruction as syntax, one lemma per constructor. -/

namespace Sys2Proof

/-- R74, first half: the word the encoder builds holds its instruction's match value in the masked bits, so the table gives
the instruction's own operation back. -/
def Laws.EncodeKeepsRow.Statement (i : Instr) : Prop := opOf (encode i) = some i.op

/-- An opcode that is its own group decides the operation, whatever the other fields (R68). -/
theorem opOfFields_opcodeOnly : ∀ f3 f7,
    opOfFields 0b0110111 f3 f7 = some .lui ∧ opOfFields 0b0010111 f3 f7 = some .auipc ∧
    opOfFields 0b1101111 f3 f7 = some .jal ∧ opOfFields 0b1100111 f3 f7 = some .jalr := by decide

/-- R63 -/
theorem opOfFields_branch : ∀ f7,
    opOfFields 0b1100011 0b000 f7 = some .beq ∧
    opOfFields 0b1100011 0b001 f7 = some .bne ∧
    opOfFields 0b1100011 0b100 f7 = some .blt ∧
    opOfFields 0b1100011 0b101 f7 = some .bge ∧
    opOfFields 0b1100011 0b110 f7 = some .bltu ∧
    opOfFields 0b1100011 0b111 f7 = some .bgeu := by decide

/-- R64 -/
theorem opOfFields_load : ∀ f7,
    opOfFields 0b0000011 0b000 f7 = some .lb ∧
    opOfFields 0b0000011 0b001 f7 = some .lh ∧
    opOfFields 0b0000011 0b010 f7 = some .lw ∧
    opOfFields 0b0000011 0b100 f7 = some .lbu ∧
    opOfFields 0b0000011 0b101 f7 = some .lhu := by decide

/-- R65 -/
theorem opOfFields_store : ∀ f7,
    opOfFields 0b0100011 0b000 f7 = some .sb ∧
    opOfFields 0b0100011 0b001 f7 = some .sh ∧
    opOfFields 0b0100011 0b010 f7 = some .sw := by decide

/-- R66 -/
theorem opOfFields_opImm : ∀ f7,
    opOfFields 0b0010011 0b000 f7 = some .addi ∧
    opOfFields 0b0010011 0b010 f7 = some .slti ∧
    opOfFields 0b0010011 0b011 f7 = some .sltiu ∧
    opOfFields 0b0010011 0b100 f7 = some .xori ∧
    opOfFields 0b0010011 0b110 f7 = some .ori ∧
    opOfFields 0b0010011 0b111 f7 = some .andi := by decide

theorem Laws.EncodeKeepsRow.lui (rd : RegIdx) (imm : Word) : Laws.EncodeKeepsRow.Statement (.lui rd imm) := by
  simp only [Laws.EncodeKeepsRow.Statement, encode, opOf_eq_fields, opcodeOf_encodeU]
  exact (opOfFields_opcodeOnly _ _).1

theorem Laws.EncodeKeepsRow.auipc (rd : RegIdx) (imm : Word) : Laws.EncodeKeepsRow.Statement (.auipc rd imm) := by
  simp only [Laws.EncodeKeepsRow.Statement, encode, opOf_eq_fields, opcodeOf_encodeU]
  exact (opOfFields_opcodeOnly _ _).2.1

theorem Laws.EncodeKeepsRow.jal (rd : RegIdx) (imm : Word) : Laws.EncodeKeepsRow.Statement (.jal rd imm) := by
  simp only [Laws.EncodeKeepsRow.Statement, encode, opOf_eq_fields, opcodeOf_encodeJ]
  exact (opOfFields_opcodeOnly _ _).2.2.1

theorem Laws.EncodeKeepsRow.jalr (rd rs1 : RegIdx) (imm : Word) : Laws.EncodeKeepsRow.Statement (.jalr rd rs1 imm) := by
  simp only [Laws.EncodeKeepsRow.Statement, encode, opOf_eq_fields, opcodeOf_encodeI, funct3Of_encodeI]
  exact (opOfFields_opcodeOnly _ _).2.2.2

theorem Laws.EncodeKeepsRow.beq (rs1 rs2 : RegIdx) (imm : Word) : Laws.EncodeKeepsRow.Statement (.beq rs1 rs2 imm) := by
  simp only [Laws.EncodeKeepsRow.Statement, encode, opOf_eq_fields, opcodeOf_encodeB, funct3Of_encodeB]
  exact (opOfFields_branch _).1

theorem Laws.EncodeKeepsRow.bne (rs1 rs2 : RegIdx) (imm : Word) : Laws.EncodeKeepsRow.Statement (.bne rs1 rs2 imm) := by
  simp only [Laws.EncodeKeepsRow.Statement, encode, opOf_eq_fields, opcodeOf_encodeB, funct3Of_encodeB]
  exact (opOfFields_branch _).2.1

theorem Laws.EncodeKeepsRow.blt (rs1 rs2 : RegIdx) (imm : Word) : Laws.EncodeKeepsRow.Statement (.blt rs1 rs2 imm) := by
  simp only [Laws.EncodeKeepsRow.Statement, encode, opOf_eq_fields, opcodeOf_encodeB, funct3Of_encodeB]
  exact (opOfFields_branch _).2.2.1

theorem Laws.EncodeKeepsRow.bge (rs1 rs2 : RegIdx) (imm : Word) : Laws.EncodeKeepsRow.Statement (.bge rs1 rs2 imm) := by
  simp only [Laws.EncodeKeepsRow.Statement, encode, opOf_eq_fields, opcodeOf_encodeB, funct3Of_encodeB]
  exact (opOfFields_branch _).2.2.2.1

theorem Laws.EncodeKeepsRow.bltu (rs1 rs2 : RegIdx) (imm : Word) : Laws.EncodeKeepsRow.Statement (.bltu rs1 rs2 imm) := by
  simp only [Laws.EncodeKeepsRow.Statement, encode, opOf_eq_fields, opcodeOf_encodeB, funct3Of_encodeB]
  exact (opOfFields_branch _).2.2.2.2.1

theorem Laws.EncodeKeepsRow.bgeu (rs1 rs2 : RegIdx) (imm : Word) : Laws.EncodeKeepsRow.Statement (.bgeu rs1 rs2 imm) := by
  simp only [Laws.EncodeKeepsRow.Statement, encode, opOf_eq_fields, opcodeOf_encodeB, funct3Of_encodeB]
  exact (opOfFields_branch _).2.2.2.2.2

theorem Laws.EncodeKeepsRow.lb (rd rs1 : RegIdx) (imm : Word) : Laws.EncodeKeepsRow.Statement (.lb rd rs1 imm) := by
  simp only [Laws.EncodeKeepsRow.Statement, encode, opOf_eq_fields, opcodeOf_encodeI, funct3Of_encodeI]
  exact (opOfFields_load _).1

theorem Laws.EncodeKeepsRow.lh (rd rs1 : RegIdx) (imm : Word) : Laws.EncodeKeepsRow.Statement (.lh rd rs1 imm) := by
  simp only [Laws.EncodeKeepsRow.Statement, encode, opOf_eq_fields, opcodeOf_encodeI, funct3Of_encodeI]
  exact (opOfFields_load _).2.1

theorem Laws.EncodeKeepsRow.lw (rd rs1 : RegIdx) (imm : Word) : Laws.EncodeKeepsRow.Statement (.lw rd rs1 imm) := by
  simp only [Laws.EncodeKeepsRow.Statement, encode, opOf_eq_fields, opcodeOf_encodeI, funct3Of_encodeI]
  exact (opOfFields_load _).2.2.1

theorem Laws.EncodeKeepsRow.lbu (rd rs1 : RegIdx) (imm : Word) : Laws.EncodeKeepsRow.Statement (.lbu rd rs1 imm) := by
  simp only [Laws.EncodeKeepsRow.Statement, encode, opOf_eq_fields, opcodeOf_encodeI, funct3Of_encodeI]
  exact (opOfFields_load _).2.2.2.1

theorem Laws.EncodeKeepsRow.lhu (rd rs1 : RegIdx) (imm : Word) : Laws.EncodeKeepsRow.Statement (.lhu rd rs1 imm) := by
  simp only [Laws.EncodeKeepsRow.Statement, encode, opOf_eq_fields, opcodeOf_encodeI, funct3Of_encodeI]
  exact (opOfFields_load _).2.2.2.2

theorem Laws.EncodeKeepsRow.sb (rs1 rs2 : RegIdx) (imm : Word) : Laws.EncodeKeepsRow.Statement (.sb rs1 rs2 imm) := by
  simp only [Laws.EncodeKeepsRow.Statement, encode, opOf_eq_fields, opcodeOf_encodeS, funct3Of_encodeS]
  exact (opOfFields_store _).1

theorem Laws.EncodeKeepsRow.sh (rs1 rs2 : RegIdx) (imm : Word) : Laws.EncodeKeepsRow.Statement (.sh rs1 rs2 imm) := by
  simp only [Laws.EncodeKeepsRow.Statement, encode, opOf_eq_fields, opcodeOf_encodeS, funct3Of_encodeS]
  exact (opOfFields_store _).2.1

theorem Laws.EncodeKeepsRow.sw (rs1 rs2 : RegIdx) (imm : Word) : Laws.EncodeKeepsRow.Statement (.sw rs1 rs2 imm) := by
  simp only [Laws.EncodeKeepsRow.Statement, encode, opOf_eq_fields, opcodeOf_encodeS, funct3Of_encodeS]
  exact (opOfFields_store _).2.2

theorem Laws.EncodeKeepsRow.addi (rd rs1 : RegIdx) (imm : Word) : Laws.EncodeKeepsRow.Statement (.addi rd rs1 imm) := by
  simp only [Laws.EncodeKeepsRow.Statement, encode, opOf_eq_fields, opcodeOf_encodeI, funct3Of_encodeI]
  exact (opOfFields_opImm _).1

theorem Laws.EncodeKeepsRow.slti (rd rs1 : RegIdx) (imm : Word) : Laws.EncodeKeepsRow.Statement (.slti rd rs1 imm) := by
  simp only [Laws.EncodeKeepsRow.Statement, encode, opOf_eq_fields, opcodeOf_encodeI, funct3Of_encodeI]
  exact (opOfFields_opImm _).2.1

theorem Laws.EncodeKeepsRow.sltiu (rd rs1 : RegIdx) (imm : Word) : Laws.EncodeKeepsRow.Statement (.sltiu rd rs1 imm) := by
  simp only [Laws.EncodeKeepsRow.Statement, encode, opOf_eq_fields, opcodeOf_encodeI, funct3Of_encodeI]
  exact (opOfFields_opImm _).2.2.1

theorem Laws.EncodeKeepsRow.xori (rd rs1 : RegIdx) (imm : Word) : Laws.EncodeKeepsRow.Statement (.xori rd rs1 imm) := by
  simp only [Laws.EncodeKeepsRow.Statement, encode, opOf_eq_fields, opcodeOf_encodeI, funct3Of_encodeI]
  exact (opOfFields_opImm _).2.2.2.1

theorem Laws.EncodeKeepsRow.ori (rd rs1 : RegIdx) (imm : Word) : Laws.EncodeKeepsRow.Statement (.ori rd rs1 imm) := by
  simp only [Laws.EncodeKeepsRow.Statement, encode, opOf_eq_fields, opcodeOf_encodeI, funct3Of_encodeI]
  exact (opOfFields_opImm _).2.2.2.2.1

theorem Laws.EncodeKeepsRow.andi (rd rs1 : RegIdx) (imm : Word) : Laws.EncodeKeepsRow.Statement (.andi rd rs1 imm) := by
  simp only [Laws.EncodeKeepsRow.Statement, encode, opOf_eq_fields, opcodeOf_encodeI, funct3Of_encodeI]
  exact (opOfFields_opImm _).2.2.2.2.2

theorem Laws.EncodeKeepsRow.slli (rd rs1 : RegIdx) (shamt : BitVec 5) : Laws.EncodeKeepsRow.Statement (.slli rd rs1 shamt) := by
  simp only [Laws.EncodeKeepsRow.Statement, encode, opOf_eq_fields, opcodeOf_encodeR, funct3Of_encodeR, funct7Of_encodeR]
  rfl

theorem Laws.EncodeKeepsRow.srli (rd rs1 : RegIdx) (shamt : BitVec 5) : Laws.EncodeKeepsRow.Statement (.srli rd rs1 shamt) := by
  simp only [Laws.EncodeKeepsRow.Statement, encode, opOf_eq_fields, opcodeOf_encodeR, funct3Of_encodeR, funct7Of_encodeR]
  rfl

theorem Laws.EncodeKeepsRow.srai (rd rs1 : RegIdx) (shamt : BitVec 5) : Laws.EncodeKeepsRow.Statement (.srai rd rs1 shamt) := by
  simp only [Laws.EncodeKeepsRow.Statement, encode, opOf_eq_fields, opcodeOf_encodeR, funct3Of_encodeR, funct7Of_encodeR]
  rfl

theorem Laws.EncodeKeepsRow.add (rd rs1 rs2 : RegIdx) : Laws.EncodeKeepsRow.Statement (.add rd rs1 rs2) := by
  simp only [Laws.EncodeKeepsRow.Statement, encode, opOf_eq_fields, opcodeOf_encodeR, funct3Of_encodeR, funct7Of_encodeR]
  rfl

theorem Laws.EncodeKeepsRow.sub (rd rs1 rs2 : RegIdx) : Laws.EncodeKeepsRow.Statement (.sub rd rs1 rs2) := by
  simp only [Laws.EncodeKeepsRow.Statement, encode, opOf_eq_fields, opcodeOf_encodeR, funct3Of_encodeR, funct7Of_encodeR]
  rfl

theorem Laws.EncodeKeepsRow.sll (rd rs1 rs2 : RegIdx) : Laws.EncodeKeepsRow.Statement (.sll rd rs1 rs2) := by
  simp only [Laws.EncodeKeepsRow.Statement, encode, opOf_eq_fields, opcodeOf_encodeR, funct3Of_encodeR, funct7Of_encodeR]
  rfl

theorem Laws.EncodeKeepsRow.slt (rd rs1 rs2 : RegIdx) : Laws.EncodeKeepsRow.Statement (.slt rd rs1 rs2) := by
  simp only [Laws.EncodeKeepsRow.Statement, encode, opOf_eq_fields, opcodeOf_encodeR, funct3Of_encodeR, funct7Of_encodeR]
  rfl

theorem Laws.EncodeKeepsRow.sltu (rd rs1 rs2 : RegIdx) : Laws.EncodeKeepsRow.Statement (.sltu rd rs1 rs2) := by
  simp only [Laws.EncodeKeepsRow.Statement, encode, opOf_eq_fields, opcodeOf_encodeR, funct3Of_encodeR, funct7Of_encodeR]
  rfl

theorem Laws.EncodeKeepsRow.xor (rd rs1 rs2 : RegIdx) : Laws.EncodeKeepsRow.Statement (.xor rd rs1 rs2) := by
  simp only [Laws.EncodeKeepsRow.Statement, encode, opOf_eq_fields, opcodeOf_encodeR, funct3Of_encodeR, funct7Of_encodeR]
  rfl

theorem Laws.EncodeKeepsRow.srl (rd rs1 rs2 : RegIdx) : Laws.EncodeKeepsRow.Statement (.srl rd rs1 rs2) := by
  simp only [Laws.EncodeKeepsRow.Statement, encode, opOf_eq_fields, opcodeOf_encodeR, funct3Of_encodeR, funct7Of_encodeR]
  rfl

theorem Laws.EncodeKeepsRow.sra (rd rs1 rs2 : RegIdx) : Laws.EncodeKeepsRow.Statement (.sra rd rs1 rs2) := by
  simp only [Laws.EncodeKeepsRow.Statement, encode, opOf_eq_fields, opcodeOf_encodeR, funct3Of_encodeR, funct7Of_encodeR]
  rfl

theorem Laws.EncodeKeepsRow.or (rd rs1 rs2 : RegIdx) : Laws.EncodeKeepsRow.Statement (.or rd rs1 rs2) := by
  simp only [Laws.EncodeKeepsRow.Statement, encode, opOf_eq_fields, opcodeOf_encodeR, funct3Of_encodeR, funct7Of_encodeR]
  rfl

theorem Laws.EncodeKeepsRow.and (rd rs1 rs2 : RegIdx) : Laws.EncodeKeepsRow.Statement (.and rd rs1 rs2) := by
  simp only [Laws.EncodeKeepsRow.Statement, encode, opOf_eq_fields, opcodeOf_encodeR, funct3Of_encodeR, funct7Of_encodeR]
  rfl

theorem Laws.EncodeKeepsRow.fence : Laws.EncodeKeepsRow.Statement (.fence) := by unfold Laws.EncodeKeepsRow.Statement; decide

theorem Laws.EncodeKeepsRow.system : Laws.EncodeKeepsRow.Statement (.system) := by unfold Laws.EncodeKeepsRow.Statement; decide

end Sys2Proof
end

