-- ==== Sys2Proof/Tests/Slice0.lean ====
section
/-! SUPPORT. Tests. The expected values are those of 95_test_vectors.md (the ids S, VU, VJ, VB, VL, VS, VI, VR, VX, VF, VM, VD
are its rows), or are worked out from the rule a docstring names; and one witness for the hypotheses of each statement. -/

namespace Sys2Proof.Tests

open Sys2Proof Sys2Proof.Machine

/-- The conventions of 95_test_vectors.md: RAM_SIZE_WORDS 64 (so MEM_SIZE 256), AUIPC_MODE canonical, running, every
register and byte 0 but the listed ones. -/
def small (pc : Word) (x : List (RegIdx × Word)) (bytes : Memory) : State :=
  (x.foldl (fun (s : State) p => s.writeReg p.1 p.2) { State.reset with mem := bytes, cfg := ⟨64, .canonical⟩ }).setPc pc

/-- One step with the word placed where the step fetches. -/
def oneStep (s : State) (w : Nat) : Option State :=
  match step (s.withFetchWord 32 w) with
  | .next t => some t
  | _ => none

/-- After one step: a register, the pc, the run state. -/
def seenReg (s : State) (w : Nat) (r : RegIdx) : Option (Word × Word × RunState) :=
  (oneStep s w).map fun t => (t.readReg r, t.pc, t.runState)

/-- After one step: four bytes at an address, the pc, the latch. -/
def seenMem (s : State) (w a : Nat) : Option (List Byte × Word × Option FaultKind) :=
  (oneStep s w).map fun t => ([t.byteAt a, t.byteAt (a + 1), t.byteAt (a + 2), t.byteAt (a + 3)], t.pc, t.fault)

/-- After one step: the pc and the latch. -/
def seenPc (s : State) (w : Nat) : Option (Word × Option FaultKind) := (oneStep s w).map fun t => (t.pc, t.fault)

/-! ### WellFormed: for each check an instruction it refuses, and one it accepts at the same edge -/

/-- R52: low 12 bits nonzero. -/
theorem test_illformed_u : (Instr.lui 1 0x00001001).wellFormed = false ∧ (Instr.auipc 1 0x800).wellFormed = false ∧
    (Instr.lui 1 0xFFFFF000).wellFormed = true := by decide

/-- R53, R54: 2048 and -2049 are out of range. -/
theorem test_illformed_i : (Instr.addi 1 1 0x800).wellFormed = false ∧ (Instr.lw 1 1 0xFFFFF7FF).wellFormed = false ∧
    (Instr.sw 1 1 0x800).wellFormed = false ∧ (Instr.jalr 1 1 0x7FF).wellFormed = true ∧
    (Instr.sb 1 1 0xFFFFF800).wellFormed = true := by decide

/-- R55: an odd offset, and 4096 and -4098. -/
theorem test_illformed_b : (Instr.beq 1 2 3).wellFormed = false ∧ (Instr.bne 1 2 0x1000).wellFormed = false ∧
    (Instr.bgeu 1 2 0xFFFFEFFE).wellFormed = false ∧ (Instr.blt 1 2 0xFFE).wellFormed = true ∧
    (Instr.bge 1 2 0xFFFFF000).wellFormed = true := by decide

/-- R56: an odd offset, and 1048576 and -1048578. -/
theorem test_illformed_j : (Instr.jal 1 1).wellFormed = false ∧ (Instr.jal 1 0x100000).wellFormed = false ∧
    (Instr.jal 1 0xFFEFFFFE).wellFormed = false ∧ (Instr.jal 1 0xFFFFE).wellFormed = true ∧
    (Instr.jal 1 0xFFF00000).wellFormed = true := by decide

/-! ### Decoding: words written out from the encodings -/

/-- VD1, VD2, VD16 -/
theorem test_decode_upper :
    decode 0xFFFFF0B7#32 = .ok (.lui 1 0xFFFFF000) ∧
    decode 0x00001117#32 = .ok (.auipc 2 0x1000) ∧
    decode 0xFFFFFFB7#32 = .ok (.lui 31 0xFFFFF000) := by decide

/-- VD3 to VD6, VD17, VD18; VJ11: JALR with bits 14:12 = 101 -/
theorem test_decode_jumps :
    decode 0xFA1FF16F#32 = .ok (.jal 2 0xFFFFFFA0) ∧
    decode 0x7FFFF2EF#32 = .ok (.jal 5 0xFFFFE) ∧
    decode 0x800002EF#32 = .ok (.jal 5 0xFFF00000) ∧
    decode 0xFE010267#32 = .ok (.jalr 4 2 0xFFFFFFE0) ∧
    decode 0xFFFFFFE7#32 = .ok (.jalr 31 31 0xFFFFFFFF) ∧
    decode 0x0040D2E7#32 = .ok (.jalr 5 1 4) ∧
    decode 0xFFFFFFEF#32 = .ok (.jal 31 0xFFFFFFFE) := by decide

/-- VD7 to VD9, VD19 and the words of section 2.3 -/
theorem test_decode_branches :
    decode 0xFE0002E3#32 = .ok (.beq 0 0 0xFFFFFFE4) ∧
    decode 0x7E000FE3#32 = .ok (.beq 0 0 0xFFE) ∧
    decode 0x80000063#32 = .ok (.beq 0 0 0xFFFFF000) ∧
    decode 0xFE209CE3#32 = .ok (.bne 1 2 0xFFFFFFF8) ∧
    decode 0x0020C663#32 = .ok (.blt 1 2 12) ∧
    decode 0x0020D663#32 = .ok (.bge 1 2 12) ∧
    decode 0x0020E663#32 = .ok (.bltu 1 2 12) ∧
    decode 0x0020F663#32 = .ok (.bgeu 1 2 12) ∧
    decode 0xFFFFFFE3#32 = .ok (.bgeu 31 31 0xFFFFFFFE) := by decide

/-- VD10 and the words of section 2.4 -/
theorem test_decode_loads :
    decode 0x00308283#32 = .ok (.lb 5 1 3) ∧
    decode 0x00209283#32 = .ok (.lh 5 1 2) ∧
    decode 0xFFC0A283#32 = .ok (.lw 5 1 0xFFFFFFFC) ∧
    decode 0x00A04303#32 = .ok (.lbu 6 0 10) ∧
    decode 0x0020D283#32 = .ok (.lhu 5 1 2) := by decide

/-- VD11 to VD13 and VS3 -/
theorem test_decode_stores :
    decode 0x7E200FA3#32 = .ok (.sb 0 2 0x7FF) ∧
    decode 0x80208023#32 = .ok (.sb 1 2 0xFFFFF800) ∧
    decode 0xFE209F23#32 = .ok (.sh 1 2 0xFFFFFFFE) ∧
    decode 0x0020A423#32 = .ok (.sw 1 2 8) := by decide

/-- VD14, VD20 and the words of section 2.6 -/
theorem test_decode_op_imm :
    decode 0xFFF08093#32 = .ok (.addi 1 1 0xFFFFFFFF) ∧
    decode 0xFFF0A193#32 = .ok (.slti 3 1 0xFFFFFFFF) ∧
    decode 0x8000B193#32 = .ok (.sltiu 3 1 0xFFFFF800) ∧
    decode 0x0F00C193#32 = .ok (.xori 3 1 0xF0) ∧
    decode 0x7000E193#32 = .ok (.ori 3 1 0x700) ∧
    decode 0xFFFFFF93#32 = .ok (.andi 31 31 0xFFFFFFFF) ∧
    decode 0x01F09193#32 = .ok (.slli 3 1 31) ∧
    decode 0x0040D193#32 = .ok (.srli 3 1 4) ∧
    decode 0x41F0D193#32 = .ok (.srai 3 1 31) := by decide

/-- VD15 and the words of section 2.7 -/
theorem test_decode_op :
    decode 0x002081B3#32 = .ok (.add 3 1 2) ∧
    decode 0x402081B3#32 = .ok (.sub 3 1 2) ∧
    decode 0x002091B3#32 = .ok (.sll 3 1 2) ∧
    decode 0x0020A1B3#32 = .ok (.slt 3 1 2) ∧
    decode 0x0020B1B3#32 = .ok (.sltu 3 1 2) ∧
    decode 0x0020C1B3#32 = .ok (.xor 3 1 2) ∧
    decode 0x0020D1B3#32 = .ok (.srl 3 1 2) ∧
    decode 0x4020D1B3#32 = .ok (.sra 3 1 2) ∧
    decode 0x0020E1B3#32 = .ok (.or 3 1 2) ∧
    decode 0x0020F1B3#32 = .ok (.and 3 1 2) := by decide

/-- VX3 to VX9 -/
theorem test_decode_fence_system :
    decode 0x0FF0000F#32 = .ok .fence ∧
    decode 0x0000100F#32 = .ok .fence ∧
    decode 0x00000073#32 = .ok .system ∧
    decode 0x00100073#32 = .ok .system ∧
    decode 0x300110F3#32 = .ok .system ∧
    decode 0x30200073#32 = .ok .system ∧
    decode 0x10500073#32 = .ok .system := by decide

/-- VX1, VX2, VX10 to VX16: opcodes of no group. -/
theorem test_reject_opcode :
    decode 0x00000000#32 = .rejected .unknownOpcode ∧
    decode 0xFFFFFFFF#32 = .rejected .unknownOpcode ∧
    decode 0x00000001#32 = .rejected .unknownOpcode ∧
    decode 0x0000A007#32 = .rejected .unknownOpcode ∧
    decode 0x0000202F#32 = .rejected .unknownOpcode ∧
    decode 0x0000003B#32 = .rejected .unknownOpcode ∧
    decode 0x0000000B#32 = .rejected .unknownOpcode ∧
    decode 0x00000036#32 = .rejected .unknownOpcode ∧
    decode 0x00000077#32 = .rejected .unknownOpcode := by decide

/-- The illegal words of sections 2.3 to 2.5, VD22, VD23. -/
theorem test_reject_funct3 :
    decode 0x0020A463#32 = .rejected .branchFunct3 ∧ decode 0x0020B463#32 = .rejected .branchFunct3 ∧
    decode 0x0000B283#32 = .rejected .loadFunct3 ∧ decode 0x0000E283#32 = .rejected .loadFunct3 ∧
    decode 0xFFFFFF83#32 = .rejected .loadFunct3 ∧ decode 0x0020B023#32 = .rejected .storeFunct3 ∧
    decode 0xFFFFFFA3#32 = .rejected .storeFunct3 := by decide

/-- VI33 to VI36, VR27 to VR31, VD21. -/
theorem test_reject_upper_bits :
    decode 0x02409193#32 = .rejected .leftShiftUpperBits ∧ decode 0x40409193#32 = .rejected .leftShiftUpperBits ∧
    decode 0x4240D193#32 = .rejected .rightShiftUpperBits ∧ decode 0x8040D193#32 = .rejected .rightShiftUpperBits ∧
    decode 0x022081B3#32 = .rejected .opFunct7 ∧ decode 0x402091B3#32 = .rejected .opFunct3 ∧
    decode 0x4020F1B3#32 = .rejected .opFunct3 ∧ decode 0x802081B3#32 = .rejected .opFunct7 ∧
    decode 0x422081B3#32 = .rejected .opFunct7 ∧ decode 0xFFFFFFB3#32 = .rejected .opFunct7 := by decide

/-- R50, R37: four bytes, the most-significant first; fewer are no instruction. -/
theorem test_decodeBytes : decodeBytes [0xFF, 0xFF, 0xF0, 0xB7] = .ok (.lui 1 0xFFFFF000) ∧
    decodeBytes [0xFF, 0xFF, 0xF0] = .rejected .truncated ∧ decodeBytes [] = .rejected .truncated := by decide

/-- VD6, VD17: the encoder writes JALR bits 14:12 as 0. -/
theorem test_encode : encode (.jalr 4 2 0xFFFFFFE0) = 0xFE010267#32 ∧ encode (.jalr 31 31 0xFFFFFFFF) = 0xFFFF8FE7#32 ∧
    encode (.jal 2 0xFFFFFFA0) = 0xFA1FF16F#32 ∧ encode (.beq 0 0 0xFFFFFFE4) = 0xFE0002E3#32 ∧
    encode (.sh 1 2 0xFFFFFFFE) = 0xFE209F23#32 ∧ encode (.srai 3 1 31) = 0x41F0D193#32 ∧
    encode (.lui 1 0xFFFFF000) = 0xFFFFF0B7#32 ∧ encode (.sra 3 1 2) = 0x4020D1B3#32 := by decide

/-- Log 18: an ill-formed immediate loses the bits its format does not hold. -/
theorem test_encode_truncates : encode (.addi 1 0 0x1005) = encode (.addi 1 0 5) ∧ encode (.jal 1 9) = encode (.jal 1 8) ∧
    encode (.lui 1 0x12345678) = encode (.lui 1 0x12345000) := by decide

/-- The host's probe: the table's numbering of a word is the word itself. -/
theorem test_decodeTableWord : decodeTableWord 32 0x002081B3 = some (.add 3 1 2) ∧ decodeTableWord 32 0 = none := by decide

/-! ### One step per instruction -/

/-- VU1, VU2 -/
theorem test_lui :
    seenReg (small 0 [] []) 0x123452B7 5 = some (0x12345000#32, 4#32, .running) ∧
    seenReg (small 0 [] []) 0xFFFFF037 0 = some (0#32, 4#32, .running) := by decide

/-- VU5, VU6, canonical -/
theorem test_auipc :
    seenReg (small 0x10 [] []) 0x00000297 5 = some (0x10#32, 0x14#32, .running) ∧
    seenReg (small 0x10 [] []) 0xFFFFF297 5 = some (0xFFFFF010#32, 0x14#32, .running) := by decide

/-- VU4, VU5, legacy_source. -/
theorem test_auipc_legacy :
    seenReg { small 0x10 [] [] with cfg := ⟨64, .legacySource⟩ } 0x00001297 5 = some (0x1010#32, 0x1010#32, .running) ∧
    seenReg { small 0x10 [] [] with cfg := ⟨64, .legacySource⟩ } 0x00000297 5 = some (0x14#32, 0x14#32, .running) := by decide

/-- VJ4, VJ7 -/
theorem test_jal :
    seenReg (small 0x20 [] []) 0xFDDFF0EF 1 = some (0x24#32, 0xFFFFFFFC#32, .running) ∧
    seenReg (small 0x20 [] []) 0x002000EF 1 = some (0x24#32, 0x22#32, .running) := by decide

/-- VJ8: target from the old register; VJ10 -/
theorem test_jalr :
    seenReg (small 0 [(1, 0x40)] []) 0x007080E7 1 = some (4#32, 0x46#32, .running) ∧
    seenReg (small 0 [] []) 0xFFF002E7 5 = some (4#32, 0xFFFFFFFE#32, .running) := by decide

/-- VB1, VB2 -/
theorem test_beq :
    seenPc (small 0x40 [(1, 5), (2, 5)] []) 0x00208663 = some (0x4C#32, none) ∧
    seenPc (small 0x40 [(1, 5), (2, 6)] []) 0x00208663 = some (0x44#32, none) := by decide

/-- VB17, VB4 -/
theorem test_bne :
    seenPc (small 0x40 [(1, 1)] []) 0xFE209CE3 = some (0x38#32, none) ∧
    seenPc (small 0x40 [(1, 5), (2, 5)] []) 0x00209663 = some (0x44#32, none) := by decide

/-- VB5, VB7 -/
theorem test_blt :
    seenPc (small 0x40 [(1, 0xFFFFFFFF), (2, 1)] []) 0x0020C663 = some (0x4C#32, none) ∧
    seenPc (small 0x40 [(1, 3), (2, 3)] []) 0x0020C663 = some (0x44#32, none) := by decide

/-- VB8, VB10 -/
theorem test_bge :
    seenPc (small 0x40 [(1, 3), (2, 3)] []) 0x0020D663 = some (0x4C#32, none) ∧
    seenPc (small 0x40 [(1, 0x7FFFFFFF), (2, 0x80000000)] []) 0x0020D663 = some (0x4C#32, none) := by decide

/-- VB11, VB12 -/
theorem test_bltu :
    seenPc (small 0x40 [(1, 1), (2, 0xFFFFFFFF)] []) 0x0020E663 = some (0x4C#32, none) ∧
    seenPc (small 0x40 [(1, 0xFFFFFFFF), (2, 1)] []) 0x0020E663 = some (0x44#32, none) := by decide

/-- VB16, VB15 -/
theorem test_bgeu :
    seenPc (small 0x40 [(1, 3), (2, 3)] []) 0x0020F663 = some (0x4C#32, none) ∧
    seenPc (small 0x40 [(1, 1), (2, 0xFFFFFFFF)] []) 0x0020F663 = some (0x44#32, none) := by decide

/-- The memory of section 2.4. -/
def loadMem : Memory :=
  [(0, 0xA0), (1, 0xA1), (2, 0xA2), (3, 0xA3), (4, 0xA4), (5, 0xA5), (6, 0xA6), (7, 0xA7), (0x40, 0x80), (0x41, 0x01),
   (0x42, 0xFF), (0x43, 0x7F), (0x44, 0x12), (0x45, 0x34), (0x46, 0x56), (0x47, 0x78), (255, 0x5A)]

/-- The memory of section 2.5, as far as the rows tested look. -/
def elevens : Memory :=
  [(0x40, 0x11), (0x41, 0x11), (0x42, 0x11), (0x43, 0x11), (0x44, 0x11), (0x45, 0x11), (0x46, 0x11), (0x47, 0x11),
   (252, 0x11), (253, 0x11), (254, 0x11), (255, 0x11)]

/-- VL1, VL14 -/
theorem test_lb :
    seenReg (small 0x10 [(1, 0x40)] loadMem) 0x00008283 5 = some (0xFFFFFF80#32, 0x14#32, .running) ∧
    seenReg (small 0x10 [] loadMem) 0x0FF00283 5 = some (0x5A#32, 0x14#32, .running) := by decide

/-- VL2 -/
theorem test_lbu :
    seenReg (small 0x10 [(1, 0x40)] loadMem) 0x0000C283 5 = some (0x80#32, 0x14#32, .running) := by decide

/-- VL4, VL8 -/
theorem test_lh :
    seenReg (small 0x10 [(1, 0x40)] loadMem) 0x00009283 5 = some (0xFFFF8001#32, 0x14#32, .running) ∧
    seenReg (small 0x10 [(1, 0x40)] loadMem) 0x00109283 5 = some (0x1FF#32, 0x14#32, .running) := by decide

/-- VL7 -/
theorem test_lhu :
    seenReg (small 0x10 [(1, 0x40)] loadMem) 0x0020D283 5 = some (0xFF7F#32, 0x14#32, .running) := by decide

/-- VL11, VL22: misaligned, and an address that wraps -/
theorem test_lw :
    seenReg (small 0x10 [(1, 0x40)] loadMem) 0x0010A283 5 = some (0x01FF7F12#32, 0x14#32, .running) ∧
    seenReg (small 0x10 [(1, 0xFFFFFFFE)] loadMem) 0x0040A283 5 = some (0xA2A3A4A5#32, 0x14#32, .running) := by decide

/-- VL15, VL16, VL18, VL19, VL20: past the end, also with register 0 as destination. -/
theorem test_load_past_the_end :
    seenPc (small 0x10 [(1, 0x100)] loadMem) 0x00008283 = some (0x10#32, some .outOfRange) ∧
    seenPc (small 0x10 [] loadMem) 0x0FF01283 = some (0x10#32, some .outOfRange) ∧
    seenPc (small 0x10 [] loadMem) 0x0FD02283 = some (0x10#32, some .outOfRange) ∧
    seenPc (small 0x10 [(1, 0x1000)] loadMem) 0x0000A003 = some (0x10#32, some .outOfRange) ∧
    seenPc (small 0x10 [] loadMem) 0xFFF00283 = some (0x10#32, some .outOfRange) := by decide

/-- VL23 with the reset's RAM_SIZE_WORDS, 2^30: the sum of the bounds check does not wrap. -/
theorem test_bounds_unbounded_sum :
    seenPc (State.reset.writeReg 1 0xFFFFFFFE) 0x0000A283 = some (0#32, some .outOfRange) ∧
    (State.reset.memRead 0xFFFFFFFC .word).isSome = true := by decide

/-- VS1, VS8 -/
theorem test_sb :
    seenMem (small 0x10 [(1, 0x40), (2, 0xAABBCCDD)] elevens) 0x002081A3 0x40 = some ([0x11, 0x11, 0x11, 0xDD], 0x14#32, none) ∧
    seenMem (small 0x10 [(2, 0x1FF)] elevens) 0x0E200FA3 252 = some ([0x11, 0x11, 0x11, 0xFF], 0x14#32, none) := by decide

/-- VS4, VS9 -/
theorem test_sh :
    seenMem (small 0x10 [(1, 0x40), (2, 0xAABBCCDD)] elevens) 0x002090A3 0x40 = some ([0x11, 0xCC, 0xDD, 0x11], 0x14#32, none) ∧
    seenMem (small 0x10 [(2, 0x1FF)] elevens) 0x0E201FA3 252 = some ([0x11, 0x11, 0x11, 0x11], 0x10#32, some .outOfRange) := by decide

/-- VS5, VS11 -/
theorem test_sw :
    seenMem (small 0x10 [(1, 0x40), (2, 0xAABBCCDD)] elevens) 0x0020A1A3 0x43 = some ([0xAA, 0xBB, 0xCC, 0xDD], 0x14#32, none) ∧
    seenMem (small 0x10 [(2, 0x01020304)] elevens) 0x0E202EA3 252 = some ([0x11, 0x11, 0x11, 0x11], 0x10#32, some .outOfRange) := by decide

/-- VI3, VI4 -/
theorem test_addi :
    seenReg (small 0 [(1, 0x7FFFFFFF)] []) 0x7FF08193 3 = some (0x800007FE#32, 4#32, .running) ∧
    seenReg (small 0 [(1, 0x80000000)] []) 0x80008193 3 = some (0x7FFFF800#32, 4#32, .running) := by decide

/-- VI8, VI9 -/
theorem test_slti :
    seenReg (small 0 [(1, 0xFFFFFFFF), (3, 9)] []) 0xFFF0A193 3 = some (0#32, 4#32, .running) ∧
    seenReg (small 0 [(1, 0x80000000)] []) 0x0000A193 3 = some (1#32, 4#32, .running) := by decide

/-- VI11, VI14 -/
theorem test_sltiu :
    seenReg (small 0 [(1, 0xFFFFFFFE)] []) 0xFFF0B193 3 = some (1#32, 4#32, .running) ∧
    seenReg (small 0 [(1, 1), (3, 9)] []) 0x0010B193 3 = some (0#32, 4#32, .running) := by decide

/-- VI17 -/
theorem test_xori :
    seenReg (small 0 [(1, 0x12345678)] []) 0xFFF0C193 3 = some (0xEDCBA987#32, 4#32, .running) := by decide

/-- VI20 -/
theorem test_ori :
    seenReg (small 0 [(1, 0x0F)] []) 0x8000E193 3 = some (0xFFFFF80F#32, 4#32, .running) := by decide

/-- VI22 -/
theorem test_andi :
    seenReg (small 0 [(1, 0x12345678)] []) 0xFF00F193 3 = some (0x12345670#32, 4#32, .running) := by decide

/-- VI23, VI24 -/
theorem test_slli :
    seenReg (small 0 [(1, 0x12345678)] []) 0x00409193 3 = some (0x23456780#32, 4#32, .running) ∧
    seenReg (small 0 [(1, 3)] []) 0x01F09193 3 = some (0x80000000#32, 4#32, .running) := by decide

/-- VI26, VI28 -/
theorem test_srli :
    seenReg (small 0 [(1, 0x87654321)] []) 0x0040D193 3 = some (0x08765432#32, 4#32, .running) ∧
    seenReg (small 0 [(1, 0x80000001)] []) 0x0000D193 3 = some (0x80000001#32, 4#32, .running) := by decide

/-- VI29, VI30 -/
theorem test_srai :
    seenReg (small 0 [(1, 0x87654321)] []) 0x4040D193 3 = some (0xF8765432#32, 4#32, .running) ∧
    seenReg (small 0 [(1, 0x80000000)] []) 0x41F0D193 3 = some (0xFFFFFFFF#32, 4#32, .running) := by decide

/-- VR1, VR3 -/
theorem test_add :
    seenReg (small 0 [(1, 0xFFFFFFFF), (2, 1), (3, 9)] []) 0x002081B3 3 = some (0#32, 4#32, .running) ∧
    seenReg (small 0 [(1, 0x80000001)] []) 0x001080B3 1 = some (2#32, 4#32, .running) := by decide

/-- VR5, VR6 -/
theorem test_sub :
    seenReg (small 0 [(2, 1)] []) 0x402081B3 3 = some (0xFFFFFFFF#32, 4#32, .running) ∧
    seenReg (small 0 [(1, 0x80000000), (2, 1)] []) 0x402081B3 3 = some (0x7FFFFFFF#32, 4#32, .running) := by decide

/-- VR8, VR10 -/
theorem test_sll :
    seenReg (small 0 [(1, 1), (2, 31)] []) 0x002091B3 3 = some (0x80000000#32, 4#32, .running) ∧
    seenReg (small 0 [(1, 0x12345678), (2, 0xFFFFFFE4)] []) 0x002091B3 3 = some (0x23456780#32, 4#32, .running) := by decide

/-- VR12, VR13 -/
theorem test_slt :
    seenReg (small 0 [(1, 1), (2, 0xFFFFFFFF), (3, 9)] []) 0x0020A1B3 3 = some (0#32, 4#32, .running) ∧
    seenReg (small 0 [(1, 0x80000000), (2, 0x7FFFFFFF)] []) 0x0020A1B3 3 = some (1#32, 4#32, .running) := by decide

/-- VR15, VR16 -/
theorem test_sltu :
    seenReg (small 0 [(1, 0xFFFFFFFF), (2, 1), (3, 9)] []) 0x0020B1B3 3 = some (0#32, 4#32, .running) ∧
    seenReg (small 0 [(1, 1), (2, 0xFFFFFFFF)] []) 0x0020B1B3 3 = some (1#32, 4#32, .running) := by decide

/-- VR19 -/
theorem test_xor :
    seenReg (small 0 [(1, 0xFF00FF00), (2, 0x0FF00FF0)] []) 0x0020C1B3 3 = some (0xF0F0F0F0#32, 4#32, .running) := by decide

/-- VR21 -/
theorem test_srl :
    seenReg (small 0 [(1, 0x80000000), (2, 0x24)] []) 0x0020D1B3 3 = some (0x08000000#32, 4#32, .running) := by decide

/-- VR23, VR24 -/
theorem test_sra :
    seenReg (small 0 [(1, 0x80000000), (2, 0x24)] []) 0x4020D1B3 3 = some (0xF8000000#32, 4#32, .running) ∧
    seenReg (small 0 [(1, 0x40000000), (2, 4)] []) 0x4020D1B3 3 = some (0x04000000#32, 4#32, .running) := by decide

/-- VR25 -/
theorem test_or :
    seenReg (small 0 [(1, 0xFF00FF00), (2, 0x0FF00FF0)] []) 0x0020E1B3 3 = some (0xFFF0FFF0#32, 4#32, .running) := by decide

/-- VR26 -/
theorem test_and :
    seenReg (small 0 [(1, 0xFF00FF00), (2, 0x0FF00FF0)] []) 0x0020F1B3 3 = some (0x0F000F00#32, 4#32, .running) := by decide

/-- VX3, VX5, VX7: the groups halt the machine, the pc stays, no register changes. -/
theorem test_fence_system :
    seenPc (small 0 [(1, 0x40)] []) 0x0FF0000F = some (0#32, some .illegalInstruction) ∧
    seenPc (small 0 [(1, 0x40)] []) 0x00000073 = some (0#32, some .illegalInstruction) ∧
    seenReg (small 0 [(1, 0x40)] []) 0x300110F3 1 = some (0x40#32, 0#32, .haltedOnFault) := by decide

/-- VX1, VI34: an unmatched word. -/
theorem test_illegal : seenPc (small 0 [] []) 0 = some (0#32, some .illegalInstruction) ∧
    seenPc (small 0 [(1, 1)] []) 0x40409193 = some (0#32, some .illegalInstruction) := by decide

/-- VF1 to VF5: the edges of the fetch. -/
theorem test_fetch_edges :
    seenPc (small 0xFC [] []) 0x00000013 = some (0x100#32, none) ∧ seenPc (small 0xFD [] []) 0x13 = some (0xFD#32, some .outOfRange) ∧
    seenPc (small 0x100 [] []) 0x13 = some (0x100#32, some .outOfRange) ∧
    seenPc (small 0xFFFFFFFE [] []) 0x13 = some (0xFFFFFFFE#32, some .outOfRange) ∧
    seenReg (small 2 [] []) 0x00500093 1 = some (5#32, 6#32, .running) := by decide

/-- VF6: no memory at all. -/
theorem test_no_memory :
    seenPc { State.reset with cfg := ⟨0, .canonical⟩ } 0x13 = some (0#32, some .outOfRange) := by decide

/-- VM1 to VM5: byte order and mixed widths. -/
theorem test_byte_order :
    let s := (small 0 [] []).writeBytes 0x80 .word 0x11223344
    s.mem = [(0x80, 0x11), (0x81, 0x22), (0x82, 0x33), (0x83, 0x44)] ∧
    s.memRead 0x83 .byte = some 0x44#32 ∧ s.memRead 0x81 .half = some 0x2233#32 ∧
    (s.writeBytes 0x81 .byte 0xAB).memRead 0x80 .word = some 0x11AB3344#32 ∧
    ((s.writeBytes 0x81 .byte 0xAB).writeBytes 0x82 .half 0xCDEF).memRead 0x80 .word = some 0x11ABCDEF#32 := by decide

/-- Writing what an unlisted address reads as removes the pair: equal memories are equal lists. -/
theorem test_canonical : (Memory.write (Memory.write [] 5 7) 5 0) = [] ∧
    Memory.write (Memory.write [] 5 7) 3 2 = Memory.write (Memory.write [] 3 2) 5 7 ∧ Memory.wf [(3, 2), (5, 7)] = true ∧
    Memory.wf [(5, 7), (3, 2)] = false ∧ Memory.wf [(3, 0)] = false ∧ State.reset.mem.wf = true := by decide

/-- R207: the explicit reset after a fault; memory stays. -/
theorem test_explicit_reset : (((small 8 [(1, 3)] [(200, 9)]).takeFault .outOfRange).explicitReset).pc = 0#32 ∧
    (((small 8 [(1, 3)] [(200, 9)]).takeFault .outOfRange).explicitReset).byteAt 200 = 9 ∧
    (((small 8 [(1, 3)] [(200, 9)]).takeFault .outOfRange).explicitReset).readReg 1 = 0#32 ∧
    (((small 8 [(1, 3)] [(200, 9)]).takeFault .outOfRange).explicitReset).runState = .running := by decide

/-- S4: the launch with preset registers (R209). -/
theorem test_launch :
    (State.launch ⟨2, .canonical⟩ (fun a => if a = 2 then 0x81 else 0) (fun r => if r = 1 then 512 else 0) 4).mem = [(2, 0x81)] ∧
    (State.launch ⟨2, .canonical⟩ (fun a => if a = 2 then 0x81 else 0) (fun r => if r = 1 then 512 else 0) 4).readReg 1 = 512#32 := by
  decide

/-! ### Witnesses: for each statement with hypotheses, states and operands that meet all of them

`edge` has a nonzero byte at the last address of memory, so that the boundary of each range is tried. -/

def edge : State := small 0x10 [(1, 0x40), (2, 0xAABBCCDD)] [(0x40, 0x80), (255, 0x5A)]

/-- A state that is not reset, and a halted one, meet the invariant. -/
theorem edge_inv : edge.Inv := by
  refine ⟨by decide, by decide, fun a h => ?_, by decide, by decide⟩
  have h : 256 ≤ a := h
  show Memory.read [(0x40, 0x80), (255, 0x5A)] a = memFill
  have h1 : a ≠ 0x40 := by omega
  have h2 : a ≠ 255 := by omega
  simp [Memory.read, h1, h2]

theorem halted_inv : (edge.takeFault .outOfRange).Inv :=
  ⟨edge_inv.config, edge_inv.memory, edge_inv.bounded, edge_inv.zero, by decide⟩

/-- LaunchTakesEveryMemoryRegistersAndPc: the last address, register 31, the largest memory. -/
theorem witness_launch : 255 < 4 * (Config.mk 64 .legacySource).ramSizeWords ∧ (31 : RegIdx) ≠ 0#5 ∧
    (Config.mk 64 .legacySource).valid = true ∧ Config.atReset.valid = true := by decide

/-- ExplicitResetKeepsMemoryAndRuns, for a halted state. -/
theorem witness_explicit_reset : ∃ s : State, s.Inv ∧ s.runState = .haltedOnFault := ⟨_, halted_inv, rfl⟩

/-- DecodeOfEncodeIsTheInstruction: the ends of each format's range. -/
theorem witness_round_trip : (Instr.lui 31 0xFFFFF000).wellFormed = true ∧ (Instr.jal 5 0xFFFFE).wellFormed = true ∧
    (Instr.jal 5 0xFFF00000).wellFormed = true ∧ (Instr.beq 31 0 0xFFFFF000).wellFormed = true ∧
    (Instr.bgeu 31 0 0xFFE).wellFormed = true ∧ (Instr.jalr 1 1 0xFFFFF800).wellFormed = true ∧
    (Instr.sw 1 1 0x7FF).wellFormed = true ∧ (Instr.srai 1 1 31).wellFormed = true := by decide

/-- DecodedWordReencodesToItself: a JALR whose ignored bits are set, a FENCE with other bits. -/
theorem witness_reencode : decode 0x0040D2E7#32 = .ok (.jalr 5 1 4) ∧ decode 0xFFFFFF8F#32 = .ok .fence ∧
    decode 0x80000063#32 = .ok (.beq 0 0 0xFFFFF000) := by decide

/-- OpcodeTableEntriesAreDisjoint: a row and a word. -/
theorem witness_disjoint : ∃ r ∈ opcodeTable, r.accepts 0x4020D1B3#32 = true ∧ r.op = .sra := by decide

/-- AcceptedWordDecodesToItsRow: a triple and a word for each clause (VR22, VI30, VJ11, VU1, VJ4, VB17, VS4), the largest
shift amount among them. -/
theorem witness_accepted :
    ((.sra, 0xFE00707F#32, 0x40005033#32) : Op × Word × Word) ∈ specOpcodeTriples ∧ 0x4020D1B3#32 &&& 0xFE00707F#32 = 0x40005033#32 ∧
    ((.srai, 0xFE00707F#32, 0x40005013#32) : Op × Word × Word) ∈ specOpcodeTriples ∧ 0x41F0D193#32 &&& 0xFE00707F#32 = 0x40005013#32 ∧
    ((.jalr, 0x7F#32, 0x67#32) : Op × Word × Word) ∈ specOpcodeTriples ∧ 0x0040D2E7#32 &&& 0x7F#32 = 0x67#32 ∧
    destOf (.sra 3 1 2) = some 3 ∧ sourcesOf (.sra 3 1 2) = [1, 2] ∧ sourcesOf (.jalr 5 1 4) = [1] := by decide

/-- AcceptedWordDecodesToItsRow, its clauses on immediates. -/
theorem witness_accepted_immediates :
    ((.lui, 0x7F#32, 0x37#32) : Op × Word × Word) ∈ specOpcodeTriples ∧ 0x123452B7#32 &&& 0x7F#32 = 0x37#32 ∧
    ((.jal, 0x7F#32, 0x6F#32) : Op × Word × Word) ∈ specOpcodeTriples ∧ 0xFDDFF0EF#32 &&& 0x7F#32 = 0x6F#32 ∧
    ((.bne, 0x707F#32, 0x1063#32) : Op × Word × Word) ∈ specOpcodeTriples ∧ 0xFE209CE3#32 &&& 0x707F#32 = 0x1063#32 ∧
    ((.sh, 0x707F#32, 0x1023#32) : Op × Word × Word) ∈ specOpcodeTriples ∧ 0x002090A3#32 &&& 0x707F#32 = 0x1023#32 := by decide

/-- DecoderOutputsDescribeTheDecodedWord: each format's immediate, and a legal word. -/
theorem witness_outputs :
    (decoderOutputs 0xFE0002E3#32).illegal = false ∧ (decoderOutputs 0xFE0002E3#32).group = some .branch ∧
    (decoderOutputs 0xFFFFF0B7#32).group = some .lui ∧ (decoderOutputs 0xFA1FF16F#32).group = some .jal ∧
    (decoderOutputs 0xFFF00283#32).group = some .load ∧ (decoderOutputs 0xFE209F23#32).group = some .store ∧
    (decoderOutputs 0x41F0D193#32).imm = some 0x41F#32 := by decide

/-- StepRunsTheInstructionAtThePc: the last word of memory (VF1). -/
theorem witness_step_runs : ∃ s : State, s.runState = .running ∧ s.pc.toNat + 4 = s.memSize ∧
    decodeBytes [s.byteAt s.pc.toNat, s.byteAt (s.pc.toNat + 1), s.byteAt (s.pc.toNat + 2), s.byteAt (s.pc.toNat + 3)] =
      .ok (.addi 0 0 0) :=
  ⟨(small 0xFC [] []).withFetchWord 32 0x13, by decide⟩

/-- HaltedMachineReportsItsLatchedFault, NothingFollowsAHaltedState. -/
theorem witness_halted : ∃ s t : State, s.runState = .haltedOnFault ∧ Reaches s t :=
  ⟨edge.takeFault .outOfRange, _, rfl, .start⟩

/-- FaultingStepChangesNothingElse, UnmatchedWordHaltsInsteadOfRepeating: `edge` has the word 0 at its pc. -/
theorem witness_unmatched : edge.runState = .running ∧ edge.fetchWord = some 0#32 ∧
    (∀ r ∈ opcodeTable, 0#32 &&& r.mask ≠ r.pattern) ∧ (∃ t, step edge = .next t ∧ t.runState = .haltedOnFault) :=
  ⟨rfl, by decide, by decide, _, rfl, rfl⟩

/-- IllegalInstructionRaisedExactlyByUnmatchedWords: a word of the SYSTEM group satisfies that group's pair and no other. -/
theorem witness_system_word : ∃ r ∈ opcodeTable, 0x300110F3#32 &&& r.mask = r.pattern ∧ r.op = .system := by decide

/-- OutOfRangeRaisedExactlyByAccessesPastTheEnd: LW at 253 faults, LW at 252 does not, and a fetch at 0xFD does. -/
theorem witness_out_of_range :
    seenPc edge 0x0FD02283 = some (0x10#32, some .outOfRange) ∧ seenPc edge 0x0FC02283 = some (0x14#32, none) ∧
    dataAccess (.lw 5 0 253) edge = some (253#32, .word) ∧ edge.memSize ≤ 253 + 4 - 1 ∧ ¬ edge.memSize ≤ 252 + 4 - 1 ∧
    (small 0xFD [] []).fetchWord = none := by decide

/-- OnlyAccessesPastTheEndAndGroupsFault: the last byte of memory, to register 0. -/
theorem witness_no_fault : isFenceOrSystem (.lb 0 0 255) = false ∧
    ∀ (addr : Word) (n : Width), dataAccess (.lb 0 0 255) edge = some (addr, n) → addr.toNat + n.bytes ≤ edge.memSize :=
  ⟨rfl, fun _ _ h => by cases h; decide⟩

/-- FenceAndSystemRaiseIllegalInstruction: other bits set. -/
theorem witness_groups : 0x0FF0000F#32 &&& 0x7F#32 = 0x0F#32 ∧ 0xFFFFFFF3#32 &&& 0x7F#32 = 0x73#32 := by decide

/-- PcAdvancesByFourUnlessRedirected: a pc that wraps, and a branch not taken. -/
theorem witness_pc_advances : ∃ s t : State, s.runState = .running ∧ exec (.beq 0 1 16) s = .next t ∧ t.runState = .running ∧
    redirectsPc (.beq 0 1 16) s = false ∧ s.pc.toNat = 0xFFFFFFFE :=
  ⟨small 0xFFFFFFFE [(1, 1)] [], _, by decide, rfl, by decide, by decide, by decide⟩

/-- EvenPcStaysEven: a pc that is 2 modulo 4. -/
theorem witness_even : ∃ s t : State, s.pc.toNat % 2 = 0 ∧ s.pc.toNat % 4 = 2 ∧ step s = .next t ∧ t.runState = .running :=
  ⟨(small 2 [] []).withFetchWord 32 0x00500093, _, by decide, by decide, rfl, by decide⟩

/-- StoredWordIsFetchedByTheNextStep: SW to the word after its own. -/
theorem witness_stored_fetched : ∃ t, edge.Inv ∧ edge.runState = .running ∧ exec (.sw 0 2 0x14) edge = .next t ∧
    t.runState = .running ∧ effectiveAddress (edge.readReg 0) 0x14 = t.pc :=
  ⟨_, edge_inv, rfl, rfl, rfl, rfl⟩

/-- SelfJumpRepeatsForEver: with and without a link register (VJ2), and a state after the first. -/
theorem witness_self_jump : ((small 0x20 [] []).withFetchWord 32 0x6F).fetchWord = some 0x6F#32 ∧
    decode 0x6F#32 = .ok (.jal 0 0#32) ∧ ((small 0x20 [] []).withFetchWord 32 0xEF).fetchWord = some 0xEF#32 ∧
    decode 0xEF#32 = .ok (.jal 1 0#32) ∧ ((small 0x20 [] []).withFetchWord 32 0xEF).atSelfJump = true ∧
    ((small 0x20 [] []).withFetchWord 32 0xEF).runState = .running := by decide

theorem witness_self_jump_later : ∃ t, Reaches ((small 0x20 [] []).withFetchWord 32 0xEF) t ∧ t.readReg 1 = 0x24#32 :=
  ⟨_, .next .start rfl, by decide⟩

/-- EveryStepKeepsTheStateInvariant, NoStepChangesTheParameters. -/
theorem witness_invariant : ∃ s t : State, s.Inv ∧ step s = .next t ∧ Reaches s t :=
  ⟨edge, _, edge_inv, rfl, .next .start rfl⟩

/-- OnlyStoresWriteMemoryAndOnlyTheirBytes: a store to the last byte, the byte before it outside; and a load. -/
theorem witness_stores : ∃ t u, edge.Inv ∧ exec (.sb 0 2 255) edge = .next t ∧ t.runState = .running ∧
    dataAccess (.sb 0 2 255) edge = some (255#32, .byte) ∧ (254 : Nat) < (255#32).toNat ∧
    exec (.lw 5 0 252) edge = .next u ∧ isStore (.lw 5 0 252) = false :=
  ⟨_, _, edge_inv, rfl, by decide, by decide, by decide, rfl, rfl⟩

/-- InstructionsTouchOnlyTheRegistersTheyName: each clause. -/
theorem witness_named_registers : ∃ t, exec (.add 3 1 2) edge = .next t ∧ destOf (.add 3 1 2) ≠ some (4 : RegIdx) ∧
    (4 : RegIdx) ∉ sourcesOf (.add 3 1 2) ∧ (3 : RegIdx) ∉ sourcesOf (.add 3 1 2) ∧ destOf (.add 3 1 2) = some 3 ∧
    edge.runState = .running ∧ t.runState = .running :=
  ⟨_, rfl, by decide, by decide, by decide, by decide, rfl, by decide⟩

/-- RegisterFileReadsAndWrites: registers 1 and 31. -/
theorem witness_registers : (31 : RegIdx) ≠ 0#5 ∧ (1 : RegIdx) ≠ 31 := by decide

/-- ReadsAreBigEndianAndZeroExtended, WrittenValueReadsBackAndNoOtherByteChanges: each width at the last place it fits, and
`edge` meets the invariant (`edge_inv`). -/
theorem witness_ranges : (255#32).toNat + Width.byte.bytes = edge.memSize ∧ (254#32).toNat + Width.half.bytes = edge.memSize ∧
    (252#32).toNat + Width.word.bytes = edge.memSize ∧ edge.memRead 255 .byte = some 0x5A#32 ∧
    edge.memRead 254 .half = some 0x5A#32 := by decide

/-- AccessFailsExactlyPastTheEnd: both sides of each edge. -/
theorem witness_access_edges : edge.memRead 256 .byte = none ∧ edge.memRead 255 .half = none ∧ edge.memRead 253 .word = none ∧
    (edge.memRead 252 .word).isSome = true ∧ edge.memWrite 253 .word 1 = none ∧ (edge.memWrite 252 .word 1).isSome = true := by
  decide

/-- NarrowReadsOfAStoredWord: at the last word of memory. -/
theorem witness_narrow : ∃ t, edge.Inv ∧ edge.memWrite 252 .word 0x11223344 = some t ∧ (255#32).toNat = (252#32).toNat + 3 ∧
    (254#32).toNat = (252#32).toNat + 2 :=
  ⟨_, edge_inv, rfl, by decide, by decide⟩

/-- AuipcCanonicalAddsToThePc, AuipcLegacyJumpsToWhatItWrites: both modes, both immediates. -/
theorem witness_auipc : edge.cfg.auipcMode = .canonical ∧
    ({ edge with cfg := ⟨64, .legacySource⟩ } : State).cfg.auipcMode = .legacySource ∧ (0x1000 : Word) ≠ 0#32 := by decide

/-- LuiLoadsTheUpperImmediate, AuipcCanonicalAddsToThePc, JalLinksAndJumps, JalrLinksAndJumpsThroughTheOldRegister: a word of
each opcode. -/
theorem witness_opcodes : 0xFFFFF0B7#32 &&& 0x7F#32 = 0x37#32 ∧ 0x00001117#32 &&& 0x7F#32 = 0x17#32 ∧
    0xFA1FF16F#32 &&& 0x7F#32 = 0x6F#32 ∧ 0x0040D2E7#32 &&& 0x7F#32 = 0x67#32 := by decide

/-- LoadsExtendTheBytesTheyRead, StoresWriteTheLowBytesOfTheRegister: each width at the last place it fits. -/
theorem witness_load_store_edges : (effectiveAddress (edge.readReg 0) 255).toNat + 1 ≤ edge.memSize ∧
    (effectiveAddress (edge.readReg 0) 254).toNat + 2 ≤ edge.memSize ∧
    (effectiveAddress (edge.readReg 0) 252).toNat + 4 ≤ edge.memSize := by decide

/-- LoadsAndStoresPastTheEndHalt: one byte further, a load to register 0 among them. -/
theorem witness_past_the_end :
    dataAccess (.lw 0 0 253) edge = some (253#32, .word) ∧ 4 * edge.cfg.ramSizeWords ≤ (253#32).toNat + Width.word.bytes - 1 ∧
    dataAccess (.sh 0 2 255) edge = some (255#32, .half) ∧ 4 * edge.cfg.ramSizeWords ≤ (255#32).toNat + Width.half.bytes - 1 ∧
    dataAccess (.sb 1 2 192) edge = some (256#32, .byte) ∧ 4 * edge.cfg.ramSizeWords ≤ (256#32).toNat + Width.byte.bytes - 1 := by
  decide

/-- InspectionShowsTheState: the window of the last two bytes. -/
theorem witness_inspect : 254 + 2 ≤ edge.memSize ∧ edge.inspectMem 254 2 = some [0, 0x5A] ∧ edge.inspectMem 254 3 = none ∧
    edge.inspectReg 2 = 0xAABBCCDD#32 := by decide

/-- The host's probe: the word placed after reset is the first that runs. -/
theorem test_withFetchWord : seenReg State.reset 0x00500093 1 = some (5#32, 4#32, .running) := by decide

end Sys2Proof.Tests
end

/-! ### 10_state.md: the registers after reset -/

section
namespace Sys2Proof.Machine

/-- A file whose stored slots are all 0 reads 0 everywhere: register 0 by R12, the others from their slot. -/
theorem readReg_of_slots_zero {s : State} (h : ∀ (i : Nat) (hi : i < 32), s.regs[i] = 0#32) (r : RegIdx) :
    s.readReg r = 0#32 := by
  by_cases hr : r = 0#5
  · rw [hr, readReg_zero]
  · rw [State.readReg, if_neg hr, h r.toNat r.isLt]

/-- R24, slot 0 included (R12). -/
@[simp] theorem reset_slot (i : Nat) (h : i < 32) : State.reset.regs[i] = 0#32 :=
  Vector.getElem_replicate h

@[simp] theorem reset_readReg (r : RegIdx) : State.reset.readReg r = 0#32 :=
  readReg_of_slots_zero reset_slot r

/-- Settles O1: every stored slot is 0 after reset (R24), so every register reads 0. -/
theorem everyRegisterIsZeroAfterReset : Obligations.EveryRegisterIsZeroAfterReset :=
  ⟨reset_readReg, reset_slot⟩

end Sys2Proof.Machine
end

/-! ### 20_memory.md: the two memory primitives -/

section
namespace Sys2Proof.Machine

/-- One byte appended on the right of a value weighs 1, and what stands before it 256. -/
theorem toNat_append_byte {n : Nat} (x : BitVec n) (b : Byte) : (x ++ b).toNat = x.toNat * 256 + b.toNat := by
  rw [BitVec.toNat_append, ← Nat.shiftLeft_add_eq_or_of_lt b.isLt, Nat.shiftLeft_eq]

section
variable (s : State) (addr : Word)

/-- R33, one byte. -/
theorem readBytes_byte_toNat : (s.readBytes addr .byte).toNat = (s.byteAt addr.toNat).toNat :=
  BitVec.toNat_setWidth_of_le (by decide)

/-- R33, two bytes: the one at the lowest address weighs 256. -/
theorem readBytes_half_toNat : (s.readBytes addr .half).toNat =
    (s.byteAt addr.toNat).toNat * 256 + (s.byteAt (addr.toNat + 1)).toNat := by
  calc (s.readBytes addr .half).toNat
      = (s.byteAt addr.toNat ++ s.byteAt (addr.toNat + 1)).toNat := BitVec.toNat_setWidth_of_le (by decide)
    _ = _ := toNat_append_byte _ _

/-- R33, four bytes: the one at the lowest address weighs `2^24`. -/
theorem readBytes_word_toNat : (s.readBytes addr .word).toNat =
    (s.byteAt addr.toNat).toNat * 16777216 + (s.byteAt (addr.toNat + 1)).toNat * 65536 +
      (s.byteAt (addr.toNat + 2)).toNat * 256 + (s.byteAt (addr.toNat + 3)).toNat := by
  calc (s.readBytes addr .word).toNat
      = (((s.byteAt addr.toNat).toNat * 256 + (s.byteAt (addr.toNat + 1)).toNat) * 256 +
          (s.byteAt (addr.toNat + 2)).toNat) * 256 + (s.byteAt (addr.toNat + 3)).toNat := by
        simp only [State.readBytes, toNat_append_byte, Nat.add_zero]
    _ = _ := by ring

end

/-- Settles O34: in range the read answers `State.readBytes` (R35), whose number each width composes most-significant byte
first (R33). -/
theorem readsAreBigEndianAndZeroExtended : Obligations.ReadsAreBigEndianAndZeroExtended := by
  intro s addr w hin
  refine ⟨s.readBytes addr w, memRead_of_inRange s addr w hin, ?_⟩
  cases w with
  | byte => exact readBytes_byte_toNat s addr
  | half => exact readBytes_half_toNat s addr
  | word => exact readBytes_word_toNat s addr

end Sys2Proof.Machine
end

/-! ### 30_encoding.md: the round trip of the encoder, and the FENCE and SYSTEM groups -/

section
namespace Sys2Proof

/-- R74, first half, for every instruction. -/
theorem Laws.EncodeKeepsRow.opOf_encode : ∀ i : Instr, opOf (encode i) = some i.op
  | .lui .. => lui .. | .auipc .. => auipc .. | .jal .. => jal .. | .jalr .. => jalr ..
  | .beq .. => beq .. | .bne .. => bne .. | .blt .. => blt ..
  | .bge .. => bge .. | .bltu .. => bltu .. | .bgeu .. => bgeu ..
  | .lb .. => lb .. | .lh .. => lh .. | .lw .. => lw .. | .lbu .. => lbu .. | .lhu .. => lhu ..
  | .sb .. => sb .. | .sh .. => sh .. | .sw .. => sw ..
  | .addi .. => addi .. | .slti .. => slti .. | .sltiu .. => sltiu ..
  | .xori .. => xori .. | .ori .. => ori .. | .andi .. => andi ..
  | .slli .. => slli .. | .srli .. => srli .. | .srai .. => srai ..
  | .add .. => add .. | .sub .. => sub .. | .sll .. => sll .. | .slt .. => slt .. | .sltu .. => sltu ..
  | .xor .. => xor .. | .srl .. => srl .. | .sra .. => sra .. | .or .. => or .. | .and .. => and ..
  | .fence => fence | .system => system

/-- R74, second half: the operands an instruction's format takes from its own word are the ones encoded there. One case per
format (R52 to R58); the range of a well-formed immediate is what its field needs to hold it. -/
theorem operandsOf_encode (i : Instr) (h : i.wellFormed = true) : operandsOf i.op (encode i) = i := by
  cases i with
  | lui rd imm | auipc rd imm =>
    simp only [Instr.op, encode, operandsOf, rdOf_encodeU, immU_encodeU _ _ _ h]
  | jal rd imm =>
    simp only [Instr.op, encode, operandsOf, rdOf_encodeJ, immJ_encodeJ _ _ _ h]
  | jalr rd rs1 imm
  | lb rd rs1 imm | lh rd rs1 imm | lw rd rs1 imm | lbu rd rs1 imm | lhu rd rs1 imm
  | addi rd rs1 imm | slti rd rs1 imm | sltiu rd rs1 imm | xori rd rs1 imm | ori rd rs1 imm | andi rd rs1 imm =>
    simp only [Instr.op, encode, operandsOf, rdOf_encodeI, rs1Of_encodeI, immI_encodeI _ _ _ _ _ h]
  | beq rs1 rs2 imm | bne rs1 rs2 imm | blt rs1 rs2 imm
  | bge rs1 rs2 imm | bltu rs1 rs2 imm | bgeu rs1 rs2 imm =>
    simp only [Instr.op, encode, operandsOf, rs1Of_encodeB, rs2Of_encodeB, immB_encodeB _ _ _ _ _ h]
  | sb rs1 rs2 imm | sh rs1 rs2 imm | sw rs1 rs2 imm =>
    simp only [Instr.op, encode, operandsOf, rs1Of_encodeS, rs2Of_encodeS, immS_encodeS _ _ _ _ _ h]
  | slli rd rs1 rs2 | srli rd rs1 rs2 | srai rd rs1 rs2
  | add rd rs1 rs2 | sub rd rs1 rs2 | sll rd rs1 rs2 | slt rd rs1 rs2 | sltu rd rs1 rs2
  | xor rd rs1 rs2 | srl rd rs1 rs2 | sra rd rs1 rs2 | or rd rs1 rs2 | and rd rs1 rs2 =>
    simp only [Instr.op, encode, operandsOf, rdOf_encodeR, rs1Of_encodeR, rs2Of_encodeR]
  | fence | system => rfl

/-- Settles O6: the encoded word gives back first the operation, then the operands. -/
theorem decodeOfEncodeIsTheInstruction : Obligations.DecodeOfEncodeIsTheInstruction := by
  intro i hwf
  calc decode (encode i)
      = .ok (operandsOf i.op (encode i)) := decode_of_op (Laws.EncodeKeepsRow.opOf_encode i)
    _ = .ok i := by rw [operandsOf_encode i hwf]

/-- R71: the opcodes of the two groups decide the operation, whatever the other compared fields. -/
theorem opOfFields_fenceSystem : ∀ f3 f7,
    opOfFields 0b0001111 f3 f7 = some .fence ∧ opOfFields 0b1110011 f3 f7 = some .system := by decide

theorem decode_of_fenceOpcode {w : Word} (h : opcodeOf w = 0b0001111) : decode w = .ok .fence :=
  decode_of_op (o := .fence) (by rw [opOf_eq_fields, h]; exact (opOfFields_fenceSystem _ _).1)

theorem decode_of_systemOpcode {w : Word} (h : opcodeOf w = 0b1110011) : decode w = .ok .system :=
  decode_of_op (o := .system) (by rw [opOf_eq_fields, h]; exact (opOfFields_fenceSystem _ _).2)

theorem groupOf_of_fenceOpcode {w : Word} (h : opcodeOf w = 0b0001111) : groupOf w = some .fence := by
  simp [groupOf, h]

theorem groupOf_of_systemOpcode {w : Word} (h : opcodeOf w = 0b1110011) : groupOf w = some .system := by
  simp [groupOf, h]

namespace Machine

/-- R180 -/
@[simp] theorem exec_fence (s : State) : exec .fence s = .next (s.takeFault .illegalInstruction) := rfl

/-- R181 -/
@[simp] theorem exec_system (s : State) : exec .system s = .next (s.takeFault .illegalInstruction) := rfl

/-- Settles O22: the mask compares the opcode alone, so it names both the row and the group; the meaning of either row takes
the fault. -/
theorem fenceAndSystemRaiseIllegalInstruction : Obligations.FenceAndSystemRaiseIllegalInstruction := by
  refine ⟨fun w hw => ?_, fun w hw => ?_, fun s => ⟨?_, ?_⟩⟩
  · have ho : opcodeOf w = 0b0001111 := (match_opcode w _).mp hw
    exact ⟨decode_of_fenceOpcode ho, groupOf_of_fenceOpcode ho⟩
  · have ho : opcodeOf w = 0b1110011 := (match_opcode w _).mp hw
    exact ⟨decode_of_systemOpcode ho, groupOf_of_systemOpcode ho⟩
  · exact ⟨_, exec_fence s, takeFault_runState .., takeFault_fault ..⟩
  · exact ⟨_, exec_system s, takeFault_runState .., takeFault_fault ..⟩

end Machine

end Sys2Proof
end

/-! ### 40_step_and_datapath.md: the pc of the next state, and what the comparator and the ALU decide -/

section
namespace Sys2Proof.Machine

/-! The adders (R82, R90) -/

/-- R82, R17 -/
theorem sequential_toNat (pc : Word) : (sequential pc).toNat = (pc.toNat + 4) % 2 ^ 32 := BitVec.toNat_add pc 4#32

/-- R90, R17 -/
theorem pcRelative_toNat (pc imm : Word) : (pcRelative pc imm).toNat = (pc.toNat + imm.toNat) % 2 ^ 32 :=
  BitVec.toNat_add pc imm

/-- R36, R90 -/
theorem effectiveAddress_toNat (base imm : Word) :
    (effectiveAddress base imm).toNat = (base.toNat + imm.toNat) % 2 ^ 32 := BitVec.toNat_add base imm

/-! The next pc, handler by handler (R82) -/

section
variable {s t : State} {rd rs1 rs2 : RegIdx} {imm : Word}

theorem pc_of_finishWith {v : Word} (h : finishWith rd v s = .next t) : t.pc = sequential s.pc := by
  cases h
  rw [advancePc_pc, writeReg_pc]

/-- R130: a load that leaves the machine running did not fault. -/
theorem pc_of_load {w : Width} {e : LoadExt} (h : load w e rd rs1 imm s = .next t) (hrun : t.runState = .running) :
    t.pc = sequential s.pc := by
  rw [load_eq] at h
  split_ifs at h
  · cases h
    cases hrun
  · exact pc_of_finishWith h

/-- R140: a store that leaves the machine running did not fault. -/
theorem pc_of_store {w : Width} (h : store w rs1 rs2 imm s = .next t) (hrun : t.runState = .running) :
    t.pc = sequential s.pc := by
  rw [store_eq] at h
  split_ifs at h <;> cases h
  · cases hrun
  · rw [advancePc_pc, writeBytes_pc]

theorem pc_of_branch_notTaken {c : BranchCond} (h : branch c rs1 rs2 imm s = .next t)
    (hnot : branchTaken c (s.readReg rs1) (s.readReg rs2) = false) : t.pc = sequential s.pc := by
  cases h
  rw [setPc_pc, hnot]
  rfl

/-- R101 -/
theorem execAuipc_canonical (hmode : s.cfg.auipcMode = .canonical) :
    execAuipc rd imm s = finishWith rd (pcRelative s.pc imm) s := by
  rw [execAuipc, hmode]

/-- An AUIPC that does not redirect the pc is a canonical one (R7 has no third mode). -/
theorem canonical_of_not_redirectsPc (hnot : redirectsPc (.auipc rd imm) s = false) : s.cfg.auipcMode = .canonical := by
  cases hmode : s.cfg.auipcMode with
  | canonical => rfl
  | legacySource => simp [redirectsPc, hmode] at hnot

end

theorem not_takesBranch_of_not_redirectsPc {i : Instr} {s : State} (hnot : redirectsPc i s = false) :
    takesBranch i s = false :=
  (Bool.or_eq_false_iff.mp hnot).1

/-- R82, by the handler an instruction shares with its group. -/
theorem pc_of_exec {i : Instr} {s t : State} (h : exec i s = .next t) (hrun : t.runState = .running)
    (hnot : redirectsPc i s = false) : t.pc = sequential s.pc := by
  cases i with
  | jal rd imm | jalr rd rs1 imm => cases hnot
  | auipc rd imm => exact pc_of_finishWith ((execAuipc_canonical (canonical_of_not_redirectsPc hnot)).symm.trans h)
  | beq rs1 rs2 imm | bne rs1 rs2 imm | blt rs1 rs2 imm | bge rs1 rs2 imm | bltu rs1 rs2 imm | bgeu rs1 rs2 imm =>
    exact pc_of_branch_notTaken h (not_takesBranch_of_not_redirectsPc hnot)
  | lb rd rs1 imm | lh rd rs1 imm | lw rd rs1 imm | lbu rd rs1 imm | lhu rd rs1 imm => exact pc_of_load h hrun
  | sb rs1 rs2 imm | sh rs1 rs2 imm | sw rs1 rs2 imm => exact pc_of_store h hrun
  | fence | system =>
    cases h
    cases hrun
  | lui rd imm
  | addi rd rs1 imm | slti rd rs1 imm | sltiu rd rs1 imm | xori rd rs1 imm | ori rd rs1 imm | andi rd rs1 imm
  | slli rd rs1 shamt | srli rd rs1 shamt | srai rd rs1 shamt
  | add rd rs1 rs2 | sub rd rs1 rs2 | sll rd rs1 rs2 | slt rd rs1 rs2 | sltu rd rs1 rs2
  | xor rd rs1 rs2 | srl rd rs1 rs2 | sra rd rs1 rs2 | or rd rs1 rs2 | and rd rs1 rs2 => exact pc_of_finishWith h

/-- Settles O24: such an instruction leaves the sequential pc (`pc_of_exec`), which is the sum modulo `2^32` (R17). -/
theorem pcAdvancesByFourUnlessRedirected : Obligations.PcAdvancesByFourUnlessRedirected := by
  intro i s t _ hexec hrun hnot
  rw [pc_of_exec hexec hrun hnot, sequential_toNat]

/-! The branches (R89, R120) -/

theorem onlyPc_setPc (s : State) (pc' : Word) : s.OnlyPc (s.setPc pc') pc' :=
  ⟨fun _ => rfl, rfl, fun _ => rfl, ⟨rfl, rfl, rfl⟩⟩

/-- A branch whose comparator decides `p` goes to its target or on, by `p`, and changes the pc alone. -/
theorem branch_onlyPc {c : BranchCond} {rs1 rs2 : RegIdx} {s : State} {p : Prop} [Decidable p]
    (hp : branchTaken c (s.readReg rs1) (s.readReg rs2) = true ↔ p) (imm : Word) :
    ∃ t, branch c rs1 rs2 imm s = .next t ∧ s.OnlyPc t (if p then s.pc + imm else s.pc + 4#32) := by
  have hpc : (if branchTaken c (s.readReg rs1) (s.readReg rs2) then pcRelative s.pc imm else sequential s.pc) =
      if p then s.pc + imm else s.pc + 4#32 := if_congr hp rfl rfl
  exact ⟨_, rfl, hpc ▸ onlyPc_setPc s _⟩

section
variable (a b : Word)

theorem branchTaken_eq : branchTaken .eq a b = true ↔ a = b := decide_eq_true_iff
theorem branchTaken_ne : branchTaken .ne a b = true ↔ a ≠ b := decide_eq_true_iff
theorem branchTaken_lt : branchTaken .lt a b = true ↔ a.toInt < b.toInt := decide_eq_true_iff
theorem branchTaken_ge : branchTaken .ge a b = true ↔ b.toInt ≤ a.toInt := by simp [branchTaken, lessSigned]
theorem branchTaken_ltu : branchTaken .ltu a b = true ↔ a.toNat < b.toNat := decide_eq_true_iff
theorem branchTaken_geu : branchTaken .geu a b = true ↔ b.toNat ≤ a.toNat := by simp [branchTaken, lessUnsigned]

end

/-- Settles O43: one shared handler (R120), and what its comparator decides for each condition (R89). -/
theorem branchesGoWhereTheirConditionSays : Obligations.BranchesGoWhereTheirConditionSays := by
  intro rs1 rs2 imm s
  exact ⟨branch_onlyPc (branchTaken_eq _ _) imm, branch_onlyPc (branchTaken_ne _ _) imm,
    branch_onlyPc (branchTaken_lt _ _) imm, branch_onlyPc (branchTaken_ge _ _) imm,
    branch_onlyPc (branchTaken_ltu _ _) imm, branch_onlyPc (branchTaken_geu _ _) imm⟩

/-! The ALU's results (R85, R86, R88) and the handler that writes them (R94) -/

/-- R82, R94: what `finishWith` answers is the result, the sequential pc, and nothing else. -/
theorem regResult_finishWith (s : State) (rd : RegIdx) (v : Word) :
    s.RegResult (s.writeReg rd v).advancePc rd v (s.pc + 4#32) := by
  have hpc : (s.writeReg rd v).advancePc = (s.writeReg rd v).setPc (s.pc + 4#32) := by
    rw [State.advancePc, writeReg_pc, sequential]
  exact hpc ▸ regResult_writeReg s rd v _

section
variable (a b : Word)

theorem alu_add_toNat : (alu .add a b).toNat = (a.toNat + b.toNat) % 2 ^ 32 := BitVec.toNat_add a b

theorem alu_sub_toNat : (alu .sub a b).toNat = (a.toNat + 2 ^ 32 - b.toNat) % 2 ^ 32 := by
  have hb := b.isLt
  rw [alu, BitVec.toNat_sub]
  congr 1
  omega

theorem alu_slt : alu .slt a b = if a.toInt < b.toInt then 1#32 else 0#32 := if_congr decide_eq_true_iff rfl rfl

theorem alu_sltu : alu .sltu a b = if a.toNat < b.toNat then 1#32 else 0#32 := if_congr decide_eq_true_iff rfl rfl

theorem alu_xor_bit (k : Nat) : (alu .xor a b).getLsbD k = (a.getLsbD k != b.getLsbD k) := BitVec.getLsbD_xor

theorem alu_or_bit (k : Nat) : (alu .or a b).getLsbD k = (a.getLsbD k || b.getLsbD k) := BitVec.getLsbD_or

theorem alu_and_bit (k : Nat) : (alu .and a b).getLsbD k = (a.getLsbD k && b.getLsbD k) := BitVec.getLsbD_and

end

/-- Settles O44: each instruction writes what the adder gives (R84, R94), and every adder is modular (R17). -/
theorem sumsAndDifferencesAreModular : Obligations.SumsAndDifferencesAreModular := by
  refine ⟨fun rd rs1 imm s => ?addi, fun rd rs1 rs2 s => ?add, fun rd rs1 rs2 s => ?sub, fun a b => ?adders⟩
  case addi => exact ⟨_, _, rfl, regResult_finishWith s rd _, alu_add_toNat _ _⟩
  case add => exact ⟨_, _, rfl, regResult_finishWith s rd _, alu_add_toNat _ _⟩
  case sub => exact ⟨_, _, rfl, regResult_finishWith s rd _, alu_sub_toNat _ _⟩
  case adders => exact ⟨pcRelative_toNat a b, effectiveAddress_toNat a b, sequential_toNat a⟩

/-- Settles O45: the ALU's comparison is the value written (R86, R94). -/
theorem comparisonsWriteOneOrZero : Obligations.ComparisonsWriteOneOrZero := by
  refine ⟨fun rd rs1 imm s => ?slti, fun rd rs1 imm s => ?sltiu, fun rd rs1 rs2 s => ?slt, fun rd rs1 rs2 s => ?sltu⟩
  case slti => exact ⟨_, rfl, alu_slt _ _ ▸ regResult_finishWith s rd _⟩
  case sltiu => exact ⟨_, rfl, alu_sltu _ _ ▸ regResult_finishWith s rd _⟩
  case slt => exact ⟨_, rfl, alu_slt _ _ ▸ regResult_finishWith s rd _⟩
  case sltu => exact ⟨_, rfl, alu_sltu _ _ ▸ regResult_finishWith s rd _⟩

/-- Settles O46: the ALU's bitwise functions are the value written (R94), each bit of it by the same bit of the operands
(R88). -/
theorem bitwiseInstructionsActOnEachBit : Obligations.BitwiseInstructionsActOnEachBit := by
  refine ⟨fun rd rs1 imm s => ⟨?xori, ?ori, ?andi⟩, fun rd rs1 rs2 s => ⟨?xor, ?or, ?and⟩⟩
  case xori | xor => exact ⟨_, _, rfl, regResult_finishWith s rd _, fun k _ => alu_xor_bit _ _ k⟩
  case ori | or => exact ⟨_, _, rfl, regResult_finishWith s rd _, fun k _ => alu_or_bit _ _ k⟩
  case andi | and => exact ⟨_, _, rfl, regResult_finishWith s rd _, fun k _ => alu_and_bit _ _ k⟩

end Sys2Proof.Machine
end

/-! ### 41_upper_immediate.md: the words and the results of LUI and AUIPC -/

section
namespace Sys2Proof

/-- R52: bits 31:12 in place and zeros below are what clearing the low 12 bits leaves. -/
theorem immU_eq_and (w : Word) : immU w = w &&& 0xFFFFF000#32 := by
  apply BitVec.eq_of_getLsbD_eq
  intro i hi
  simp only [immU, BitVec.getLsbD_and, BitVec.getLsbD_append, BitVec.getLsbD_extractLsb']
  interval_cases i <;> simp

/-- R68, R71: the pairs keyed by the opcode alone share one mask and differ in their match values, and they stand first in
the table, so the match value decides the operation. -/
theorem opOf_of_opcodeRow {w p : Word} {o : Op} (hrow : (⟨o, 0x0000007F#32, p⟩ : Row) ∈ rowsByOpcode)
    (hw : w &&& 0x0000007F#32 = p) : opOf w = some o := by
  have hmask : ∀ q ∈ rowsByOpcode, q.mask = 0x0000007F#32 := by decide
  have hdistinct : ∀ r ∈ rowsByOpcode, rowsByOpcode.find? (r.pattern == ·.pattern) = some r := by decide
  have haccepts : ∀ q ∈ rowsByOpcode, q.accepts w = (p == q.pattern) := fun q hq => by
    rw [Row.accepts, hmask q hq, hw]
  have hfind : rowsByOpcode.find? (·.accepts w) = some ⟨o, 0x0000007F#32, p⟩ :=
    (List.find?_congr haccepts).trans (hdistinct _ hrow)
  simp [opOf, opcodeTable, List.find?_append, hfind]

/-- R100, R52 -/
theorem decode_of_luiOpcode {w : Word} (hw : w &&& 0x0000007F#32 = 0x00000037#32) :
    decode w = .ok (.lui (rdOf w) (w &&& 0xFFFFF000#32)) := by
  rw [decode_of_op (opOf_of_opcodeRow (o := .lui) (by decide) hw), operandsOf, immU_eq_and]

/-- R101, R52 -/
theorem decode_of_auipcOpcode {w : Word} (hw : w &&& 0x0000007F#32 = 0x00000017#32) :
    decode w = .ok (.auipc (rdOf w) (w &&& 0xFFFFF000#32)) := by
  rw [decode_of_op (opOf_of_opcodeRow (o := .auipc) (by decide) hw), operandsOf, immU_eq_and]

namespace Machine

/-- Settles O38: the opcode alone names LUI, whose shared handler writes the immediate (R82, R94). -/
theorem luiLoadsTheUpperImmediate : Obligations.LuiLoadsTheUpperImmediate :=
  ⟨fun _ => decode_of_luiOpcode, fun rd imm s => ⟨_, rfl, regResult_finishWith s rd imm⟩⟩

/-- Settles O39: the opcode alone names AUIPC, which in `canonical` mode is LUI's handler on the pc-relative sum. -/
theorem auipcCanonicalAddsToThePc : Obligations.AuipcCanonicalAddsToThePc :=
  ⟨fun _ => decode_of_auipcOpcode,
    fun rd imm s hmode => ⟨_, execAuipc_canonical hmode, regResult_finishWith s rd (pcRelative s.pc imm)⟩⟩

end Machine

end Sys2Proof
end

/-! ### 60_exceptions.md: the words that raise IllegalInstruction -/

section
namespace Sys2Proof

/-- R69: no two pairs ask the same of the bits both their masks compare. -/
theorem opcodeTable_disjoint : ∀ q ∈ opcodeTable, ∀ r ∈ opcodeTable,
    q.pattern &&& r.mask = r.pattern &&& q.mask → q = r := by decide

/-- R69: a word satisfies one pair of the table at most. -/
theorem row_unique {w : Word} {q r : Row} (hq : q ∈ opcodeTable) (hr : r ∈ opcodeTable)
    (hwq : w &&& q.mask = q.pattern) (hwr : w &&& r.mask = r.pattern) : q = r := by
  refine opcodeTable_disjoint q hq r hr ?_
  rw [← hwq, ← hwr, BitVec.and_assoc, BitVec.and_assoc, BitVec.and_comm q.mask]

/-- R61, R69: whichever pair a word satisfies, it names the word's operation, wherever it stands in the table. -/
theorem opOf_eq_some {w : Word} {o : Op} :
    opOf w = some o ↔ ∃ r ∈ opcodeTable, r.op = o ∧ w &&& r.mask = r.pattern := by
  refine ⟨opOf_row, ?_⟩
  rintro ⟨r, hr, rfl, hwr⟩
  cases hop : opOf w with
  | none => exact absurd hwr ((opOf_eq_none w).mp hop r hr)
  | some o =>
    obtain ⟨q, hq, rfl, hwq⟩ := opOf_row hop
    rw [row_unique hq hr hwq hwr]

/-- R187: what the table says of a word by its pairs, said by the word's operation. -/
theorem onlyGroupRows_iff {w : Word} :
    (∀ r ∈ opcodeTable, w &&& r.mask = r.pattern → r.op = .fence ∨ r.op = .system) ↔
      ∀ o, opOf w = some o → o = .fence ∨ o = .system := by
  constructor
  · intro h o ho
    obtain ⟨r, hr, rfl, hwr⟩ := opOf_eq_some.mp ho
    exact h r hr hwr
  · intro h r hr hwr
    exact h r.op (opOf_eq_some.mpr ⟨r, hr, rfl, hwr⟩)

namespace Machine

theorem isFenceOrSystem_iff_op {i : Instr} : isFenceOrSystem i = true ↔ i.op = .fence ∨ i.op = .system := by
  cases i <;> simp [isFenceOrSystem, Instr.op]

/-- R180, R181 -/
theorem exec_of_group {i : Instr} (hgroup : isFenceOrSystem i = true) (s : State) :
    exec i s = .next (s.takeFault .illegalInstruction) := by
  cases i with
  | fence => exact exec_fence s
  | system => exact exec_system s
  | _ => cases hgroup

/-- R187, R191: of the instructions a running machine decodes, those of the two groups alone raise IllegalInstruction. -/
theorem exec_illegalInstruction_iff {i : Instr} {s t : State} (hrun : s.runState = .running) (h : exec i s = .next t) :
    (t.runState = .haltedOnFault ∧ t.fault = some .illegalInstruction) ↔ isFenceOrSystem i = true := by
  constructor
  · rintro ⟨hhalt, hfault⟩
    cases exec_effect i s t h with
    | groupFault hgroup _ => exact hgroup
    | dataFault _ _ _ _ ht => simp [ht] at hfault
    | result _ _ _ _ _ _ _ ht | goto _ _ _ _ _ ht | stored _ _ _ _ _ _ _ ht => simp [ht, hrun] at hhalt
  · intro hgroup
    cases h.symm.trans (exec_of_group hgroup s)
    exact ⟨takeFault_runState .., takeFault_fault ..⟩

/-- Settles O19: a step fetches nothing, rejects the word, which then has no operation, or runs the instruction of the word's
operation (`step_cases`); in each case the fault raised and the word's operation agree. -/
theorem illegalInstructionRaisedExactlyByUnmatchedWords : Obligations.IllegalInstructionRaisedExactlyByUnmatchedWords := by
  intro s t h
  simp only [onlyGroupRows_iff]
  obtain ⟨hrun, ⟨hfetch, rfl⟩ | ⟨w, r, hfetch, hdec, rfl⟩ | ⟨w, i, hfetch, hdec, hexec⟩⟩ := step_cases h
  · simp [hfetch]
  · simp [hfetch, ((decode_rejected w r).mp hdec).1]
  · simp [exec_illegalInstruction_iff hrun hexec, isFenceOrSystem_iff_op, hfetch, (decode_ok hdec).1]

/-- R191: a fetched word without an operation is rejected, and the step takes the fault. -/
theorem step_of_opOf_none {s : State} {w : Word} (hrun : s.runState = .running) (hfetch : s.fetchWord = some w)
    (hop : opOf w = none) : step s = .next (s.takeFault .illegalInstruction) := by
  have hdec : decode w = .rejected (rejectReason w) := (decode_rejected w _).mpr ⟨hop, rfl⟩
  simp only [step, hrun, hfetch, hdec, raise]

/-- R192: a halted machine has no transition. -/
theorem step_ne_next_of_halted {s : State} (hhalt : s.runState = .haltedOnFault) (t : State) : step s ≠ .next t := by
  intro h
  have hrun : s.runState = .running := (step_cases h).1
  cases hhalt.symm.trans hrun

/-- Settles O20: a word that satisfies no pair has no operation, so the step takes the fault, and the halted state it answers
has no transition. -/
theorem unmatchedWordHaltsInsteadOfRepeating : Obligations.UnmatchedWordHaltsInsteadOfRepeating := by
  intro s w hrun hfetch hnone
  exact ⟨_, step_of_opOf_none hrun hfetch ((opOf_eq_none w).mpr hnone), takeFault_runState .., takeFault_fault ..,
    step_ne_next_of_halted (takeFault_runState ..)⟩

end Machine

end Sys2Proof
end

/-! ### 10_state.md: what every step keeps -/

section
namespace Sys2Proof.Machine

section
variable (s : State) (r q : RegIdx) (u v : Word) (k : FaultKind)

@[simp] theorem setPc_memSize : (s.setPc v).memSize = s.memSize := rfl
@[simp] theorem advancePc_memSize : s.advancePc.memSize = s.memSize := rfl
@[simp] theorem takeFault_memSize : (s.takeFault k).memSize = s.memSize := rfl
@[simp] theorem explicitReset_memSize : s.explicitReset.memSize = s.memSize := rfl
@[simp] theorem explicitReset_byteAt (a : Nat) : s.explicitReset.byteAt a = s.byteAt a := rfl
@[simp] theorem writeReg_memSize : (s.writeReg r v).memSize = s.memSize := by simp [State.memSize]

end

/-! Each update of the state keeps the invariant. -/

/-- R189: the latch is set together with the run state. -/
theorem State.Inv.takeFault {s : State} (h : s.Inv) (k : FaultKind) : (s.takeFault k).Inv where
  config := h.config
  memory := h.memory
  bounded := h.bounded
  zero := h.zero
  latch := by simp

theorem State.Inv.setPc {s : State} (h : s.Inv) (v : Word) : (s.setPc v).Inv where
  config := h.config
  memory := h.memory
  bounded := h.bounded
  zero := h.zero
  latch := h.latch

theorem State.Inv.writeReg {s : State} (h : s.Inv) (r : RegIdx) (v : Word) : (s.writeReg r v).Inv where
  config := by simpa using h.config
  memory := by simpa using h.memory
  bounded := by simpa using h.bounded
  zero := by simpa using h.zero
  latch := by simpa using h.latch

/-- R22: an access inside MEM_SIZE writes nothing at or past it. -/
theorem State.Inv.writeBytes {s : State} (h : s.Inv) {addr : Word} {w : Width} (hin : addr.toNat + w.bytes ≤ s.memSize)
    (v : Word) : (s.writeBytes addr w v).Inv where
  config := by simpa using h.config
  memory := writeBytes_wf s addr w v h.memory
  bounded a ha := by
    rw [writeBytes_memSize] at ha
    rw [byteAt_writeBytes s addr w v h.memory, if_neg (by omega)]
    exact h.bounded a ha
  zero := by simpa using h.zero
  latch := by simpa using h.latch

theorem State.Inv.explicitReset {s : State} (h : s.Inv) : s.explicitReset.Inv where
  config := h.config
  memory := h.memory
  bounded := h.bounded
  zero := Vector.getElem_replicate (by decide)
  latch := by simp

/-- Every instruction keeps the invariant, whatever it answers. -/
theorem inv_of_exec {i : Instr} {s t : State} (hs : s.Inv) (h : exec i s = .next t) : t.Inv := by
  cases exec_effect i s t h with
  | dataFault _ _ _ _ ht | groupFault _ ht => exact ht ▸ hs.takeFault _
  | result rd v pc' _ _ _ _ ht => exact ht ▸ (hs.writeReg rd v).setPc pc'
  | goto pc' _ _ _ _ ht => exact ht ▸ hs.setPc pc'
  | stored addr w v _ _ _ hin ht => exact ht ▸ (hs.writeBytes hin v).setPc _

/-- Settles O28: a step takes a fault or runs an instruction (`step_cases`), and both keep the invariant. -/
theorem everyStepKeepsTheStateInvariant : Obligations.EveryStepKeepsTheStateInvariant := by
  intro s t hs h
  obtain ⟨_, ⟨_, rfl⟩ | ⟨_, _, _, _, rfl⟩ | ⟨_, _, _, _, hexec⟩⟩ := step_cases h
  · exact hs.takeFault _
  · exact hs.takeFault _
  · exact inv_of_exec hs hexec

theorem cfg_of_exec {i : Instr} {s t : State} (h : exec i s = .next t) : t.cfg = s.cfg := by
  cases exec_effect i s t h with
  | dataFault _ _ _ _ ht | groupFault _ ht | result _ _ _ _ _ _ _ ht | goto _ _ _ _ _ ht | stored _ _ _ _ _ _ _ ht =>
    simp [ht]

/-- R23 -/
theorem cfg_of_step {s t : State} (h : step s = .next t) : t.cfg = s.cfg := by
  obtain ⟨_, ⟨_, rfl⟩ | ⟨_, _, _, _, rfl⟩ | ⟨_, _, _, _, hexec⟩⟩ := step_cases h
  · rfl
  · rfl
  · exact cfg_of_exec hexec

/-- Settles O29, by induction on the run. -/
theorem noStepChangesTheParameters : Obligations.NoStepChangesTheParameters := by
  intro s t hreach
  induction hreach with
  | start => rfl
  | next _ hstep ih => exact (cfg_of_step hstep).trans ih

/-- Settles O30: of the effects an instruction can have (`exec_effect`) a store's alone touches memory, and it leaves the
bytes outside its access as they were. -/
theorem onlyStoresWriteMemoryAndOnlyTheirBytes : Obligations.OnlyStoresWriteMemoryAndOnlyTheirBytes := by
  intro i s t hs h
  cases exec_effect i s t h with
  | dataFault _ _ _ _ ht | groupFault _ ht | result _ _ _ _ _ _ _ ht | goto _ _ _ _ _ ht =>
    have hsame : s.SameMemory t := fun a => by simp [ht]
    exact ⟨fun _ => hsame, fun _ _ _ a _ => hsame a⟩
  | stored addr w v _ hstore haccess _ ht =>
    refine ⟨fun hnot => absurd hstore (by simp [hnot]), fun addr' n haccess' a hout => ?_⟩
    cases haccess.symm.trans haccess'
    rw [ht, advancePc_byteAt, byteAt_writeBytes s addr w v hs.memory, if_neg (by omega)]

/-! The register file (R12 to R14) -/

/-- Writes, however many, leave the stored slot of register 0 alone. -/
theorem foldl_writeReg_slotZero (ws : List (RegIdx × Word)) (s : State) :
    (ws.foldl (fun u p => u.writeReg p.1 p.2) s).regs[0] = s.regs[0] := by
  induction ws generalizing s with
  | nil => rfl
  | cons p ws ih => rw [List.foldl_cons, ih, writeReg_slotZero]

/-- Settles O32: the laws of one write, and for a sequence of writes induction on it. -/
theorem registerFileReadsAndWrites : Obligations.RegisterFileReadsAndWrites :=
  ⟨reset_readReg, fun s => ⟨readReg_zero s, writeReg_zero s, readReg_writeReg_same s, readReg_writeReg_other s,
    fun ws => ⟨readReg_zero _, foldl_writeReg_slotZero ws s⟩⟩⟩

end Sys2Proof.Machine
end

/-! ### 70_reset_and_hazards.md: reset, launch, explicit reset, halted states -/

section
namespace Sys2Proof.Machine

/-- Settles O2: the fields of the reset state as they are written (R25, R26). -/
theorem resetRunsFromAddressZero : Obligations.ResetRunsFromAddressZero := ⟨rfl, rfl, rfl⟩

/-- Settles O3: nothing is listed in memory, and the latch is none while running. -/
theorem resetMeetsTheStateInvariant : Obligations.ResetMeetsTheStateInvariant where
  config := by decide
  memory := rfl
  bounded _ _ := rfl
  zero := reset_slot 0 (by decide)
  latch := ⟨fun _ => rfl, fun _ => rfl⟩

section
variable (c : Config) (memInit : Nat → Byte) (x : RegIdx → Word) (pc : Word)

/-- R8, R209 -/
theorem launch_byteAt (a : Nat) :
    (State.launch c memInit x pc).byteAt a = if a < 4 * c.ramSizeWords then memInit a else memFill := by
  simp [State.launch, State.byteAt, Memory.read_ofImage]

/-- R209 -/
theorem launch_readReg (r : RegIdx) (hr : r ≠ 0#5) : (State.launch c memInit x pc).readReg r = x r := by
  have hslot : r.toNat ≠ 0 := fun h => hr (BitVec.eq_of_toNat_eq h)
  rw [State.readReg, if_neg hr]
  simp only [State.launch, Vector.getElem_ofFn, if_neg hslot, BitVec.ofNat_toNat, BitVec.setWidth_eq]

theorem launch_inv (hc : c.valid = true) : (State.launch c memInit x pc).Inv where
  config := hc
  memory := Memory.wf_ofImage memInit _
  bounded a ha := (launch_byteAt ..).trans (if_neg (Nat.not_lt.mpr ha))
  zero := by simp [State.launch]
  latch := ⟨fun _ => rfl, fun _ => rfl⟩

end

/-- Settles O4: what the launch image and the preset register file read as. -/
theorem launchTakesEveryMemoryRegistersAndPc : Obligations.LaunchTakesEveryMemoryRegistersAndPc :=
  fun c memInit x pc => ⟨fun a ha => by rw [launch_byteAt, if_pos ha], launch_readReg c memInit x pc, rfl, rfl, rfl, rfl, rfl,
    launch_inv c memInit x pc⟩

/-- R80: a running machine's step always answers a next state. -/
theorem step_next_of_running {s : State} (hrun : s.runState = .running) : ∃ t, step s = .next t := by
  unfold step
  rw [hrun]
  cases s.fetchWord with
  | none => exact ⟨_, rfl⟩
  | some w =>
    cases hdec : decode w with
    | rejected r => exact ⟨_, by simp only [hdec]; rfl⟩
    | ok i => simpa only [hdec] using exec_next i s

/-- R192 -/
theorem step_of_halted {s : State} (hhalt : s.runState = .haltedOnFault) : step s = .fault (.stepWhileHalted s.fault) := by
  rw [step, hhalt]

/-- Settles O14: the halted branch of the step (`step_of_halted`). -/
theorem haltedMachineReportsItsLatchedFault : Obligations.HaltedMachineReportsItsLatchedFault := fun _ => step_of_halted

/-- Settles O5: the explicit reset leaves a running machine, whose step answers. -/
theorem explicitResetKeepsMemoryAndRuns : Obligations.ExplicitResetKeepsMemoryAndRuns :=
  fun _ => ⟨readReg_of_slots_zero fun _ hi => Vector.getElem_replicate hi, rfl, rfl, rfl, fun _ => rfl, rfl,
    State.Inv.explicitReset, step_next_of_running rfl⟩

/-- Settles O15: the two run states decide the answer (`step_next_of_running`, `step_of_halted`). -/
theorem stepAnswersExactlyWhileRunning : Obligations.StepAnswersExactlyWhileRunning := by
  intro s
  cases hs : s.runState with
  | running =>
    obtain ⟨t, ht⟩ := step_next_of_running hs
    simp [ht]
  | haltedOnFault => simp [step_of_halted hs]

/-- Settles O16, by induction on the run: its last step would be one of the halted state. -/
theorem nothingFollowsAHaltedState : Obligations.NothingFollowsAHaltedState := by
  intro s t hhalt hreach
  induction hreach with
  | start => rfl
  | next _ hstep ih => exact absurd (ih ▸ hstep) (step_ne_next_of_halted hhalt _)

end Sys2Proof.Machine
end

/-! ### 20_memory.md: writes, bounds, and narrow reads of a stored word -/

section
namespace Sys2Proof.Machine

theorem memRead_eq_none_iff (s : State) (addr : Word) (w : Width) :
    s.memRead addr w = none ↔ s.memSize ≤ addr.toNat + w.bytes - 1 := by
  simp [State.memRead, State.pastEnd]

theorem memWrite_eq_none_iff (s : State) (addr : Word) (w : Width) (v : Word) :
    s.memWrite addr w v = none ↔ s.memSize ≤ addr.toNat + w.bytes - 1 := by
  simp [State.memWrite, State.pastEnd]

/-- R37 -/
theorem fetchWord_eq_none_iff (s : State) : s.fetchWord = none ↔ s.memSize ≤ s.pc.toNat + 4 - 1 :=
  memRead_eq_none_iff s s.pc .word

/-- Settles O36: both primitives make the same bounds check (R35). -/
theorem accessFailsExactlyPastTheEnd : Obligations.AccessFailsExactlyPastTheEnd :=
  fun s addr w v => ⟨memRead_eq_none_iff s addr w, memWrite_eq_none_iff s addr w v⟩

section
variable (s : State) (addr : Word) (w : Width) (v : Word)

/-- R34: the bytes of the access after a store. -/
theorem byteAt_writeBytes_inside (h : s.mem.wf = true) {k : Nat} (hk : k < w.bytes) :
    (s.writeBytes addr w v).byteAt (addr.toNat + k) = storedByte w v k := by
  rw [byteAt_writeBytes s addr w v h, if_pos (by omega), Nat.add_sub_cancel_left]

/-- R34: every byte outside the access after a store. -/
theorem byteAt_writeBytes_outside (h : s.mem.wf = true) {a : Nat} (ha : a < addr.toNat ∨ addr.toNat + w.bytes ≤ a) :
    (s.writeBytes addr w v).byteAt a = s.byteAt a := by
  rw [byteAt_writeBytes s addr w v h, if_neg (by omega)]

theorem writeBytes_sameControl : s.SameControl (s.writeBytes addr w v) := ⟨by simp, by simp, by simp⟩

theorem writeBytes_sameRegs : s.SameRegs (s.writeBytes addr w v) := fun r => writeBytes_readReg s addr w v r

/-- R33, R34: a value reads back as its low bytes. -/
theorem readBytes_writeBytes_toNat (h : s.mem.wf = true) :
    ((s.writeBytes addr w v).readBytes addr w).toNat = v.toNat % 2 ^ (8 * w.bytes) := by
  rw [readBytes_writeBytes s addr w v h]
  cases w with
  | byte | half =>
    simp only [Width.bytes, BitVec.toNat_setWidth, BitVec.extractLsb'_toNat, Nat.shiftRight_zero]
    omega
  | word => exact (Nat.mod_eq_of_lt v.isLt).symm

end

/-- Settles O35: in range the write is `State.writeBytes` (R35); its bytes, its frame and what it reads back as. -/
theorem writtenValueReadsBackAndNoOtherByteChanges : Obligations.WrittenValueReadsBackAndNoOtherByteChanges := by
  intro s addr w v hs hin
  have hread := memRead_of_inRange (s.writeBytes addr w v) addr w (by rwa [writeBytes_memSize])
  exact ⟨_, memWrite_of_inRange s addr w v hin,
    fun k hk => byteAt_writeBytes_inside s addr w v hs.memory hk,
    fun a ha => byteAt_writeBytes_outside s addr w v hs.memory ha,
    ⟨_, hread, readBytes_writeBytes_toNat s addr w v hs.memory⟩,
    writeBytes_sameRegs s addr w v, writeBytes_pc s addr w v, writeBytes_sameControl s addr w v⟩

/-- Two neighbouring bytes of a stored word are the half-word of the value at that place. -/
theorem storedByte_append (v : Word) {k : Nat} (hk : k < 3) :
    storedByte .word v k ++ storedByte .word v (k + 1) = v.extractLsb' (8 * (2 - k)) 16 := by
  apply BitVec.eq_of_getLsbD_eq
  intro i hi
  simp only [storedByte, Width.bytes, BitVec.getLsbD_append, BitVec.getLsbD_extractLsb']
  interval_cases k <;> interval_cases i <;> simp

/-- Settles O37: a narrow read inside the word sees the stored bytes (R33, R34). -/
theorem narrowReadsOfAStoredWord : Obligations.NarrowReadsOfAStoredWord := by
  intro s t a v hs h
  obtain ⟨hin, rfl⟩ := memWrite_cases h
  have hbyte {k : Nat} (hk : k < 4) : (s.writeBytes a .word v).byteAt (a.toNat + k) = storedByte .word v k :=
    byteAt_writeBytes_inside s a .word v hs.memory hk
  simp only [Width.bytes] at hin
  refine ⟨fun k hk b hb => ?byte, fun k hk b hb => ?half⟩
  case byte =>
    rw [memRead_of_inRange _ _ _ (by rw [writeBytes_memSize, hb, Width.bytes]; omega)]
    simp only [State.readBytes, hb, Nat.add_zero, hbyte hk]
    rfl
  case half =>
    rw [memRead_of_inRange _ _ _ (by rw [writeBytes_memSize, hb, Width.bytes]; omega)]
    simp only [State.readBytes, hb, Nat.add_zero, Nat.add_assoc, hbyte (show k < 4 by omega),
      hbyte (show k + 1 < 4 by omega), storedByte_append v hk]

/-- Settles O26: the store completes, and the fetch at its address reads the four bytes back (R33, R34). -/
theorem storedWordIsFetchedByTheNextStep : Obligations.StoredWordIsFetchedByTheNextStep := by
  intro s t rs1 rs2 imm hs _ hexec hrun haddr
  have hstore : store .word rs1 rs2 imm s = .next t := hexec
  rw [store_eq] at hstore
  split_ifs at hstore with hpast <;> cases hstore
  · cases hrun
  · calc State.fetchWord _
        = (s.writeBytes (effectiveAddress (s.readReg rs1) imm) .word (s.readReg rs2)).memRead
            (effectiveAddress (s.readReg rs1) imm) .word := by rw [haddr]; rfl
      _ = some (s.readReg rs2) := by
          rw [memRead_of_inRange _ _ _ (by rw [writeBytes_memSize]; omega), readBytes_writeBytes _ _ _ _ hs.memory]

end Sys2Proof.Machine
end

/-! ### 40_step_and_datapath.md: the step of a decoded word, jumps and shifts -/

section
namespace Sys2Proof.Machine

/-- R80 -/
theorem step_of_decode {s : State} {w : Word} {i : Instr} (hrun : s.runState = .running) (hfetch : s.fetchWord = some w)
    (hdec : decode w = .ok i) : step s = exec i s := by
  simp only [step, hrun, hfetch, hdec]

/-- R33, R37: in range the fetched word is the four bytes at the pc, most-significant byte first. -/
theorem fetchWord_of_inRange {s : State} (hin : s.pc.toNat + 4 ≤ s.memSize) :
    s.fetchWord = some (wordOfBytes (s.byteAt s.pc.toNat) (s.byteAt (s.pc.toNat + 1)) (s.byteAt (s.pc.toNat + 2))
      (s.byteAt (s.pc.toNat + 3))) :=
  memRead_of_inRange s s.pc .word hin

/-- Settles O13: the fetch answers the word of those bytes, and the step runs what it decodes to. -/
theorem stepRunsTheInstructionAtThePc : Obligations.StepRunsTheInstructionAtThePc :=
  fun _ _ hrun hin hdec => step_of_decode hrun (fetchWord_of_inRange hin) hdec

/-- R102 -/
theorem execAuipc_legacy {s : State} (hmode : s.cfg.auipcMode = .legacySource) (rd : RegIdx) (imm : Word) :
    execAuipc rd imm s = .next ((s.writeReg rd (auipcLegacyTarget s.pc imm)).setPc (auipcLegacyTarget s.pc imm)) := by
  rw [execAuipc, hmode]

/-- Settles O40: in this mode AUIPC writes its target and goes there; the immediate says which target (R102). -/
theorem auipcLegacyJumpsToWhatItWrites : Obligations.AuipcLegacyJumpsToWhatItWrites := by
  intro rd imm s hmode
  have hres := regResult_writeReg s rd (auipcLegacyTarget s.pc imm) (auipcLegacyTarget s.pc imm)
  refine ⟨fun hzero => ⟨_, execAuipc_legacy hmode rd imm, ?_⟩, fun hne => ⟨_, execAuipc_legacy hmode rd imm, ?_⟩⟩
  · have htarget : auipcLegacyTarget s.pc imm = s.pc + 4#32 := if_pos hzero
    rwa [htarget] at hres ⊢
  · have htarget : auipcLegacyTarget s.pc imm = s.pc + imm := if_neg hne
    rwa [htarget] at hres ⊢

/-- R110, R56 -/
theorem decode_of_jalOpcode {w : Word} (hw : w &&& 0x0000007F#32 = 0x0000006F#32) :
    decode w = .ok (.jal (rdOf w) (immJ w)) :=
  decode_of_op (opOf_of_opcodeRow (o := .jal) (by decide) hw)

/-- R111, R53: bits 14:12 are not compared (log 10). -/
theorem decode_of_jalrOpcode {w : Word} (hw : w &&& 0x0000007F#32 = 0x00000067#32) :
    decode w = .ok (.jalr (rdOf w) (rs1Of w) (immI w)) :=
  decode_of_op (opOf_of_opcodeRow (o := .jalr) (by decide) hw)

/-- Settles O41: the opcode alone names JAL, and its shared handler links and jumps. -/
theorem jalLinksAndJumps : Obligations.JalLinksAndJumps :=
  ⟨fun _ => decode_of_jalOpcode, fun rd imm s => ⟨_, rfl, regResult_writeReg s rd (sequential s.pc) (pcRelative s.pc imm)⟩⟩

/-- R111: bit 0 of a JALR target is 0. -/
theorem jalrTarget_even (base imm : Word) : (jalrTarget base imm).toNat % 2 = 0 := by
  have hbit : (jalrTarget base imm).getLsbD 0 = false := by simp [jalrTarget]
  simpa [BitVec.getLsbD, Nat.testBit_zero] using hbit

/-- Settles O42: the opcode alone names JALR; link and target come from the state before the step (R83). -/
theorem jalrLinksAndJumpsThroughTheOldRegister : Obligations.JalrLinksAndJumpsThroughTheOldRegister :=
  ⟨fun _ => decode_of_jalrOpcode, fun rd rs1 imm s =>
    ⟨_, rfl, regResult_writeReg s rd (sequential s.pc) (jalrTarget (s.readReg rs1) imm), jalrTarget_even _ _⟩⟩

/-! The shifts (R87) -/

section
variable (a b : Word)

theorem alu_sll_toNat : (alu .sll a b).toNat = (a.toNat * 2 ^ shiftAmount b) % 2 ^ 32 := by
  rw [alu, BitVec.toNat_shiftLeft, Nat.shiftLeft_eq]

theorem alu_srl_toNat : (alu .srl a b).toNat = a.toNat / 2 ^ shiftAmount b := by
  rw [alu, BitVec.toNat_ushiftRight, Nat.shiftRight_eq_div_pow]

theorem alu_sra_toInt : (alu .sra a b).toInt = a.toInt / 2 ^ shiftAmount b := by
  rw [alu, BitVec.toInt_sshiftRight, Int.shiftRight_eq_div_pow]
  norm_cast

theorem shiftAmount_eq_mod : shiftAmount b = b.toNat % 32 := by
  rw [shiftAmount, BitVec.extractLsb'_toNat, Nat.shiftRight_zero]

end

theorem shiftAmount_setWidth (shamt : BitVec 5) : shiftAmount (shamt.setWidth 32) = shamt.toNat := by
  rw [shiftAmount_eq_mod, BitVec.toNat_setWidth_of_le (by decide), Nat.mod_eq_of_lt shamt.isLt]

/-- Settles O47: the ALU's shifts by the amount of the field. -/
theorem immediateShifts : Obligations.ImmediateShifts := by
  intro rd rs1 shamt s
  rw [← shiftAmount_setWidth shamt]
  exact ⟨⟨_, _, rfl, regResult_finishWith s rd _, alu_sll_toNat _ _⟩, ⟨_, _, rfl, regResult_finishWith s rd _, alu_srl_toNat _ _⟩,
    ⟨_, _, rfl, regResult_finishWith s rd _, alu_sra_toInt _ _⟩⟩

/-- Settles O48: the same shifts, by the register's low five bits. -/
theorem registerShiftsUseTheLowFiveBits : Obligations.RegisterShiftsUseTheLowFiveBits := by
  intro rd rs1 rs2 s
  rw [← shiftAmount_eq_mod]
  exact ⟨⟨_, _, rfl, regResult_finishWith s rd _, alu_sll_toNat _ _⟩, ⟨_, _, rfl, regResult_finishWith s rd _, alu_srl_toNat _ _⟩,
    ⟨_, _, rfl, regResult_finishWith s rd _, alu_sra_toInt _ _⟩⟩

end Sys2Proof.Machine
end

/-! ### 44_loads.md and 45_stores.md: loads and stores in range -/

section
namespace Sys2Proof.Machine

section
variable (s : State) (addr : Word)

/-- R92: a field read back from its zero extension. -/
theorem extractLsb'_setWidth_self {n : Nat} (hn : n ≤ 32) (b : BitVec n) : (b.setWidth 32).extractLsb' 0 n = b := by
  apply BitVec.eq_of_getLsbD_eq
  intro i hi
  simp [hi, Nat.lt_of_lt_of_le hi hn]

theorem extendLoad_byte_signed : extendLoad .byte .signed (s.readBytes addr .byte) = (s.byteAt addr.toNat).signExtend 32 :=
  congrArg (BitVec.signExtend 32) (extractLsb'_setWidth_self (by decide) _)

theorem extendLoad_byte_unsigned : extendLoad .byte .unsigned (s.readBytes addr .byte) = (s.byteAt addr.toNat).setWidth 32 :=
  congrArg (BitVec.setWidth 32) (extractLsb'_setWidth_self (by decide) _)

theorem extendLoad_half_signed : extendLoad .half .signed (s.readBytes addr .half) =
    (s.byteAt addr.toNat ++ s.byteAt (addr.toNat + 1)).signExtend 32 :=
  congrArg (BitVec.signExtend 32) (extractLsb'_setWidth_self (by decide) _)

theorem extendLoad_half_unsigned : extendLoad .half .unsigned (s.readBytes addr .half) =
    (s.byteAt addr.toNat ++ s.byteAt (addr.toNat + 1)).setWidth 32 :=
  congrArg (BitVec.setWidth 32) (extractLsb'_setWidth_self (by decide) _)

end

section
variable {s : State} {rs1 : RegIdx} {imm : Word} {w : Width}
  (hin : (effectiveAddress (s.readReg rs1) imm).toNat + w.bytes ≤ s.memSize)
include hin

/-- R130, R94: a load in range is a register result. -/
theorem load_of_inRange (e : LoadExt) (rd : RegIdx) : ∃ t, load w e rd rs1 imm s = .next t ∧
    s.RegResult t rd (extendLoad w e (s.readBytes (effectiveAddress (s.readReg rs1) imm) w)) (s.pc + 4#32) :=
  ⟨_, (load_eq ..).trans (if_neg (by omega)), regResult_finishWith s rd _⟩

/-- R140: a store in range stores the low bytes and advances the pc. -/
theorem store_of_inRange (rs2 : RegIdx) : store w rs1 rs2 imm s =
    .next (s.writeBytes (effectiveAddress (s.readReg rs1) imm) w (s.readReg rs2)).advancePc := by
  rw [store_eq, if_neg (by omega)]

end

/-- Settles O49: each load is the shared handler in range, and the value it writes is the extended bytes. -/
theorem loadsExtendTheBytesTheyRead : Obligations.LoadsExtendTheBytesTheyRead := by
  rintro rd rs1 imm s _ rfl
  refine ⟨fun h => ?lb, fun h => ?lbu, fun h => ?lh, fun h => ?lhu, fun h => ?lw⟩
  case lb => exact extendLoad_byte_signed s _ ▸ load_of_inRange (w := .byte) h .signed rd
  case lbu => exact extendLoad_byte_unsigned s _ ▸ load_of_inRange (w := .byte) h .unsigned rd
  case lh => exact extendLoad_half_signed s _ ▸ load_of_inRange (w := .half) h .signed rd
  case lhu => exact extendLoad_half_unsigned s _ ▸ load_of_inRange (w := .half) h .unsigned rd
  case lw => exact load_of_inRange (w := .word) h .unsigned rd

/-- R93: what a store in range leaves, by bytes, registers, pc and control state. -/
theorem store_result {s : State} {rs1 : RegIdx} {imm : Word} {w : Width} (hs : s.Inv)
    (hin : (effectiveAddress (s.readReg rs1) imm).toNat + w.bytes ≤ s.memSize) (rs2 : RegIdx) :
    ∃ t, store w rs1 rs2 imm s = .next t ∧
      (∀ k < w.bytes, t.byteAt ((effectiveAddress (s.readReg rs1) imm).toNat + k) = storedByte w (s.readReg rs2) k) ∧
      (∀ a : Nat, (a < (effectiveAddress (s.readReg rs1) imm).toNat ∨
        (effectiveAddress (s.readReg rs1) imm).toNat + w.bytes ≤ a) → t.byteAt a = s.byteAt a) ∧
      s.SameRegs t ∧ t.pc = s.pc + 4#32 ∧ s.SameControl t :=
  ⟨_, store_of_inRange hin rs2, fun _ hk => byteAt_writeBytes_inside s _ w _ hs.memory hk,
    fun _ ha => byteAt_writeBytes_outside s _ w _ hs.memory ha, writeBytes_sameRegs s _ w _,
    congrArg sequential (writeBytes_pc s _ w _), ⟨by simp, by simp, by simp⟩⟩

/-- Settles O50: the shared handler's result (`store_result`), its bytes counted out for each width. -/
theorem storesWriteTheLowBytesOfTheRegister : Obligations.StoresWriteTheLowBytesOfTheRegister := by
  rintro rs1 rs2 imm s _ hs rfl
  refine ⟨fun h => ?sb, fun h => ?sh, fun h => ?sw⟩
  case sb =>
    obtain ⟨t, ht, hbytes, hframe, hrest⟩ := store_result (w := .byte) hs h rs2
    exact ⟨t, ht, hbytes 0 (by decide), fun a ha => hframe a (by simp only [Width.bytes]; omega), hrest⟩
  case sh =>
    obtain ⟨t, ht, hbytes, hrest⟩ := store_result (w := .half) hs h rs2
    exact ⟨t, ht, hbytes 0 (by decide), hbytes 1 (by decide), hrest⟩
  case sw =>
    obtain ⟨t, ht, hbytes, hrest⟩ := store_result (w := .word) hs h rs2
    exact ⟨t, ht, hbytes 0 (by decide), hbytes 1 (by decide), hbytes 2 (by decide), hbytes 3 (by decide), hrest⟩

end Sys2Proof.Machine
end

/-! ### 60_exceptions.md: what a fault changes, and what raises OutOfRange -/

section
namespace Sys2Proof.Machine

/-- Settles O23: either group takes the fault, which changes the run state and the latch alone (R189). -/
theorem fenceAndSystemChangeNothingElse : Obligations.FenceAndSystemChangeNothingElse :=
  fun s => ⟨⟨_, exec_fence s, halted_takeFault s _⟩, ⟨_, exec_system s, halted_takeFault s _⟩⟩

/-- An instruction of the FENCE or SYSTEM group makes no data access. -/
theorem dataAccess_of_group {i : Instr} (hgroup : isFenceOrSystem i = true) (s : State) : dataAccess i s = none := by
  cases i with
  | fence | system => rfl
  | _ => cases hgroup

/-- R130, R140: an instruction whose data access lies past the end takes the fault. -/
theorem exec_of_pastEnd {i : Instr} {s : State} {addr : Word} {n : Width} (haccess : dataAccess i s = some (addr, n))
    (hpast : s.memSize < addr.toNat + n.bytes) : exec i s = .next (s.takeFault .outOfRange) := by
  obtain ⟨t, ht⟩ := exec_next i s
  rw [ht]
  cases exec_effect i s t ht with
  | dataFault _ _ _ _ hafter => rw [hafter]
  | groupFault hgroup _ => simp [dataAccess_of_group hgroup] at haccess
  | result _ _ _ _ _ _ hin _ => exact absurd (hin addr n haccess) (by omega)
  | goto _ _ _ _ hnone _ => simp [hnone] at haccess
  | stored _ _ _ _ _ haccess' hin _ =>
    cases haccess.symm.trans haccess'
    omega

/-- R201: an instruction of neither group, whose data access, if any, stays inside MEM_SIZE, leaves run state and latch alone. -/
theorem exec_control {i : Instr} {s t : State} (hgroup : isFenceOrSystem i = false)
    (hin : ∀ (addr : Word) (n : Width), dataAccess i s = some (addr, n) → addr.toNat + n.bytes ≤ s.memSize)
    (h : exec i s = .next t) : t.runState = s.runState ∧ t.fault = s.fault := by
  cases exec_effect i s t h with
  | dataFault addr n haccess hpast _ => exact absurd (hin addr n haccess) (by omega)
  | groupFault hgroup' _ => simp [hgroup] at hgroup'
  | result _ _ _ _ _ _ _ ht | goto _ _ _ _ _ ht | stored _ _ _ _ _ _ _ ht => simp [ht]

/-- Settles O21: every instruction answers a next state, and this one's has the control state of before (`exec_control`). -/
theorem onlyAccessesPastTheEndAndGroupsFault : Obligations.OnlyAccessesPastTheEndAndGroupsFault := by
  intro i s hgroup hin
  obtain ⟨t, ht⟩ := exec_next i s
  exact ⟨t, ht, exec_control hgroup hin ht⟩

theorem pastEnd_iff_lastByte (m : Nat) (addr : Word) (n : Width) :
    m ≤ addr.toNat + n.bytes - 1 ↔ m < addr.toNat + n.bytes := by
  have := n.bytes_pos
  omega

/-- Settles O51: the access past the end takes the fault (`exec_of_pastEnd`), which changes nothing else (R189). -/
theorem loadsAndStoresPastTheEndHalt : Obligations.LoadsAndStoresPastTheEndHalt :=
  fun _ s addr n haccess hpast =>
    ⟨_, exec_of_pastEnd haccess ((pastEnd_iff_lastByte _ addr n).mp hpast), halted_takeFault s _⟩

/-- R186: of the instructions a running machine decodes, those whose data access lies past the end raise OutOfRange. -/
theorem exec_outOfRange_iff {i : Instr} {s t : State} (hrun : s.runState = .running) (h : exec i s = .next t) :
    (t.runState = .haltedOnFault ∧ t.fault = some .outOfRange) ↔
      ∃ (addr : Word) (n : Width), dataAccess i s = some (addr, n) ∧ s.memSize ≤ addr.toNat + n.bytes - 1 := by
  simp only [pastEnd_iff_lastByte]
  constructor
  · rintro ⟨hhalt, hfault⟩
    cases exec_effect i s t h with
    | dataFault addr n haccess hpast _ => exact ⟨addr, n, haccess, hpast⟩
    | groupFault _ ht => simp [ht] at hfault
    | result _ _ _ _ _ _ _ ht | goto _ _ _ _ _ ht | stored _ _ _ _ _ _ _ ht => simp [ht, hrun] at hhalt
  · rintro ⟨addr, n, haccess, hpast⟩
    cases h.symm.trans (exec_of_pastEnd haccess hpast)
    exact ⟨takeFault_runState .., takeFault_fault ..⟩

/-- Settles O18: a step fails to fetch, rejects the word, or runs its instruction (`step_cases`). -/
theorem outOfRangeRaisedExactlyByAccessesPastTheEnd : Obligations.OutOfRangeRaisedExactlyByAccessesPastTheEnd := by
  intro s t h
  refine ⟨?_, fun _ hhalt => step_ne_next_of_halted hhalt⟩
  rw [← fetchWord_eq_none_iff]
  obtain ⟨hrun, ⟨hfetch, rfl⟩ | ⟨w, r, hfetch, hdec, rfl⟩ | ⟨w, i, hfetch, hdec, hexec⟩⟩ := step_cases h
  · simp [hfetch]
  · simp [hfetch, hdec]
  · simp [exec_outOfRange_iff hrun hexec, hfetch, hdec]

/-- R189: an instruction that leaves a running machine halted has taken a fault. -/
theorem exec_halted {i : Instr} {s t : State} (hrun : s.runState = .running) (h : exec i s = .next t)
    (hhalt : t.runState = .haltedOnFault) : ∃ k, t = s.takeFault k := by
  cases exec_effect i s t h with
  | dataFault _ _ _ _ ht | groupFault _ ht => exact ⟨_, ht⟩
  | result _ _ _ _ _ _ _ ht | goto _ _ _ _ _ ht | stored _ _ _ _ _ _ _ ht => simp [ht, hrun] at hhalt

/-- R189: a step that leaves the machine halted has taken a fault. -/
theorem step_halted {s t : State} (h : step s = .next t) (hhalt : t.runState = .haltedOnFault) :
    ∃ k, t = s.takeFault k := by
  obtain ⟨hrun, ⟨_, ht⟩ | ⟨_, _, _, _, ht⟩ | ⟨_, _, _, _, hexec⟩⟩ := step_cases h
  · exact ⟨_, ht⟩
  · exact ⟨_, ht⟩
  · exact exec_halted hrun hexec hhalt

/-- Settles O17: the halted state is the one the fault left (`step_halted`). -/
theorem faultingStepChangesNothingElse : Obligations.FaultingStepChangesNothingElse := by
  intro s t h hhalt
  obtain ⟨k, rfl⟩ := step_halted h hhalt
  exact ⟨k, halted_takeFault s k⟩

/-! Inspection (R200) -/

theorem inspectRegs_getElem (s : State) (r : RegIdx) : s.inspectRegs[r.toNat]'r.isLt = s.readReg r := by
  simp [State.inspectRegs]

/-- Settles O52: the window is the list of the bytes at its addresses. -/
theorem inspectionShowsTheState : Obligations.InspectionShowsTheState :=
  fun s => ⟨fun _ => rfl, inspectRegs_getElem s, rfl,
    fun _ _ hin => ⟨_, if_pos hin, by simp, fun _ _ => by simp⟩⟩

end Sys2Proof.Machine
end

/-! ### 30_encoding.md: a word by its operation's fields, and the words that are rejected -/

section
namespace Sys2Proof

/-- R60, R63 to R67: the group an operation belongs to. -/
def Op.group : Op → Group
  | .lui => .lui
  | .auipc => .auipc
  | .jal => .jal
  | .jalr => .jalr
  | .beq | .bne | .blt | .bge | .bltu | .bgeu => .branch
  | .lb | .lh | .lw | .lbu | .lhu => .load
  | .sb | .sh | .sw => .store
  | .addi | .slti | .sltiu | .xori | .ori | .andi | .slli | .srli | .srai => .opImm
  | .add | .sub | .sll | .slt | .sltu | .xor | .srl | .sra | .or | .and => .op
  | .fence => .fence
  | .system => .system

/-- R60 -/
def Group.opcode : Group → BitVec 7
  | .lui => 0b0110111
  | .auipc => 0b0010111
  | .jal => 0b1101111
  | .jalr => 0b1100111
  | .branch => 0b1100011
  | .load => 0b0000011
  | .store => 0b0100011
  | .opImm => 0b0010011
  | .op => 0b0110011
  | .fence => 0b0001111
  | .system => 0b1110011

/-- R63 to R67: the funct3 an operation's pair compares, none where it compares the opcode alone (R68, R71). -/
def Op.funct3 : Op → Option (BitVec 3)
  | .beq | .lb | .sb | .addi | .add | .sub => some 0b000
  | .bne | .lh | .sh | .slli | .sll => some 0b001
  | .lw | .sw | .slti | .slt => some 0b010
  | .sltiu | .sltu => some 0b011
  | .blt | .lbu | .xori | .xor => some 0b100
  | .bge | .lhu | .srli | .srai | .srl | .sra => some 0b101
  | .bltu | .ori | .or => some 0b110
  | .bgeu | .andi | .and => some 0b111
  | .lui | .auipc | .jal | .jalr | .fence | .system => none

/-- R66, R67: the upper seven bits the pairs of the shift-immediates and of OP compare, none for the others. -/
def Op.funct7 : Op → Option (BitVec 7)
  | .slli | .srli | .add | .sll | .slt | .sltu | .xor | .srl | .or | .and => some 0b0000000
  | .srai | .sub | .sra => some 0b0100000
  | _ => none

/-- The operations of a group. -/
def Group.ops : Group → List Op
  | .lui => [.lui]
  | .auipc => [.auipc]
  | .jal => [.jal]
  | .jalr => [.jalr]
  | .branch => [.beq, .bne, .blt, .bge, .bltu, .bgeu]
  | .load => [.lb, .lh, .lw, .lbu, .lhu]
  | .store => [.sb, .sh, .sw]
  | .opImm => [.addi, .slti, .sltiu, .xori, .ori, .andi, .slli, .srli, .srai]
  | .op => [.add, .sub, .sll, .slt, .sltu, .xor, .srl, .sra, .or, .and]
  | .fence => [.fence]
  | .system => [.system]

theorem mem_ops_group (o : Op) : o ∈ o.group.ops := by cases o <;> decide

theorem group_of_mem_ops {g : Group} {o : Op} (h : o ∈ g.ops) : o.group = g := by
  cases g <;> fin_cases h <;> rfl

/-! The pairs of the table in terms of the compared fields -/

/-- A word holds the funct3 and the funct7 that an operation's pair compares. -/
def Op.HasFuncts (o : Op) (w : Word) : Prop :=
  (∀ f, o.funct3 = some f → funct3Of w = f) ∧ ∀ f, o.funct7 = some f → funct7Of w = f

/-- R61, R63 to R68, R71: the pair of an operation, its mask one of three shapes. -/
def Op.row (o : Op) : Row :=
  match o.funct3, o.funct7 with
  | none, _ => ⟨o, 0x0000007F#32, o.group.opcode.setWidth 32⟩
  | some f3, none => ⟨o, 0x0000707F#32, 0#17 ++ f3 ++ 0#5 ++ o.group.opcode⟩
  | some f3, some f7 => ⟨o, 0xFE00707F#32, f7 ++ 0#10 ++ f3 ++ 0#5 ++ o.group.opcode⟩

theorem row_mem_opcodeTable (o : Op) : o.row ∈ opcodeTable := by cases o <;> decide

theorem eq_row_of_mem : ∀ r ∈ opcodeTable, r = r.op.row := by decide

theorem row_op (o : Op) : o.row.op = o := by cases o <;> rfl

theorem funct7_none_of_funct3_none {o : Op} (h : o.funct3 = none) : o.funct7 = none := by
  cases o <;> simp [Op.funct3] at h <;> rfl

theorem matches_row_iff (o : Op) (w : Word) :
    w &&& o.row.mask = o.row.pattern ↔ opcodeOf w = o.group.opcode ∧ o.HasFuncts w := by
  unfold Op.row Op.HasFuncts
  cases h3 : o.funct3 with
  | none => simpa [funct7_none_of_funct3_none h3] using match_opcode w o.group.opcode
  | some f3 =>
    cases h7 : o.funct7 with
    | none => simpa using match_funct3 w f3 o.group.opcode
    | some f7 => simpa using match_funct7 w f7 f3 o.group.opcode

/-- R61: the operation of a word, by its fields. -/
theorem opOf_eq_some_iff {w : Word} {o : Op} : opOf w = some o ↔ opcodeOf w = o.group.opcode ∧ o.HasFuncts w := by
  rw [← matches_row_iff, opOf_eq_some]
  constructor
  · rintro ⟨r, hr, rfl, hw⟩
    rwa [← eq_row_of_mem r hr]
  · exact fun hw => ⟨o.row, row_mem_opcodeTable o, row_op o, hw⟩

section
variable {w : Word} {o : Op} (h : opOf w = some o)
include h

theorem opcodeOf_of_op : opcodeOf w = o.group.opcode := (opOf_eq_some_iff.mp h).1

theorem funct3Of_of_op {f : BitVec 3} (hf : o.funct3 = some f) : funct3Of w = f := (opOf_eq_some_iff.mp h).2.1 f hf

theorem funct7Of_of_op {f : BitVec 7} (hf : o.funct7 = some f) : funct7Of w = f := (opOf_eq_some_iff.mp h).2.2 f hf

end

/-- R60: the group of a word is the one its opcode names. -/
theorem groupOf_eq_some {w : Word} {g : Group} : groupOf w = some g ↔ opcodeOf w = g.opcode := by
  unfold groupOf
  generalize opcodeOf w = o
  revert o
  cases g <;> decide

theorem groupOf_of_op {w : Word} {o : Op} (h : opOf w = some o) : groupOf w = some o.group :=
  groupOf_eq_some.mpr (opcodeOf_of_op h)

/-! Decoding and encoding again (R73, R74) -/

/-- R59: the immediate a format takes from a word is in the format's range. -/
theorem operandsOf_wellFormed (o : Op) (w : Word) : (operandsOf o w).wellFormed = true := by
  cases o with
  | lui | auipc => exact immU_fits w
  | jal => exact immJ_fits w
  | jalr | lb | lh | lw | lbu | lhu | addi | slti | sltiu | xori | ori | andi => exact immI_fits w
  | beq | bne | blt | bge | bltu | bgeu => exact immB_fits w
  | sb | sh | sw => exact immS_fits w
  | slli | srli | srai | add | sub | sll | slt | sltu | xor | srl | sra | or | and | fence | system => rfl

theorem wellFormed_of_decode {w : Word} {i : Instr} (h : decode w = .ok i) : i.wellFormed = true := by
  rw [(decode_ok h).2]
  exact operandsOf_wellFormed i.op w

/-- R111, R53: an I word with zeros for funct3 is the word with bits 14:12 cleared. -/
theorem encodeI_zero_fields (w : Word) : encodeI (opcodeOf w) 0 (rdOf w) (rs1Of w) (immI w) = w &&& 0xFFFF8FFF#32 := by
  apply BitVec.eq_of_getLsbD_eq
  intro i hi
  simp only [encodeI, opcodeOf, rdOf, rs1Of, immI, BitVec.getLsbD_append, BitVec.getLsbD_extractLsb',
    BitVec.getLsbD_signExtend, BitVec.getLsbD_and]
  interval_cases i <;> simp

section
variable {w : Word} {o : Op} (h : opOf w = some o)
include h

/-! The word of an operation's fields, in the formats R52 to R57 -/

theorem encodeU_of_op : encodeU o.group.opcode (rdOf w) (immU w) = w := by
  rw [← opcodeOf_of_op h, encodeU_fields]

theorem encodeJ_of_op : encodeJ o.group.opcode (rdOf w) (immJ w) = w := by
  rw [← opcodeOf_of_op h, encodeJ_fields]

/-- JALR's word has zeros where its pair compares no funct3 (log 18). -/
theorem encodeI_zero_of_op : encodeI o.group.opcode 0 (rdOf w) (rs1Of w) (immI w) = w &&& 0xFFFF8FFF#32 := by
  rw [← opcodeOf_of_op h, encodeI_zero_fields]

theorem encodeI_of_op {f3 : BitVec 3} (hf3 : o.funct3 = some f3) :
    encodeI o.group.opcode f3 (rdOf w) (rs1Of w) (immI w) = w := by
  rw [← opcodeOf_of_op h, ← funct3Of_of_op h hf3, encodeI_fields]

theorem encodeS_of_op {f3 : BitVec 3} (hf3 : o.funct3 = some f3) :
    encodeS o.group.opcode f3 (rs1Of w) (rs2Of w) (immS w) = w := by
  rw [← opcodeOf_of_op h, ← funct3Of_of_op h hf3, encodeS_fields]

theorem encodeB_of_op {f3 : BitVec 3} (hf3 : o.funct3 = some f3) :
    encodeB o.group.opcode f3 (rs1Of w) (rs2Of w) (immB w) = w := by
  rw [← opcodeOf_of_op h, ← funct3Of_of_op h hf3, encodeB_fields]

theorem encodeR_of_op {f3 : BitVec 3} {f7 : BitVec 7} (hf3 : o.funct3 = some f3) (hf7 : o.funct7 = some f7) :
    encodeR o.group.opcode f7 f3 (rdOf w) (rs1Of w) (rs2Of w) = w := by
  rw [← opcodeOf_of_op h, ← funct3Of_of_op h hf3, ← funct7Of_of_op h hf7, encodeR_fields]

/-- R73: a word's operation and operands make up its used bits again, one case per format (R52 to R58). -/
theorem encode_operandsOf : encode (operandsOf o w) = w &&& Machine.usedBits (operandsOf o w) := by
  have hall : w &&& 0xFFFFFFFF#32 = w := BitVec.and_allOnes
  cases o with
  | lui | auipc => exact (encodeU_of_op h).trans hall.symm
  | jal => exact (encodeJ_of_op h).trans hall.symm
  | jalr => exact encodeI_zero_of_op h
  | lb | lh | lw | lbu | lhu | addi | slti | sltiu | xori | ori | andi => exact (encodeI_of_op h rfl).trans hall.symm
  | beq | bne | blt | bge | bltu | bgeu => exact (encodeB_of_op h rfl).trans hall.symm
  | sb | sh | sw => exact (encodeS_of_op h rfl).trans hall.symm
  | slli | srli | srai | add | sub | sll | slt | sltu | xor | srl | sra | or | and =>
    exact (encodeR_of_op h rfl rfl).trans hall.symm
  | fence | system => exact ((match_opcode w _).mpr (opcodeOf_of_op h)).symm

end

/-- Settles O7: the decoded instruction is made of the word's operation and operands (`decode_ok`). -/
theorem decodedWordReencodesToItself : Obligations.DecodedWordReencodesToItself := by
  intro w i h
  obtain ⟨hop, hi⟩ := decode_ok h
  have hencode := encode_operandsOf hop
  rw [← hi] at hencode
  exact ⟨wellFormed_of_decode h, hencode⟩

/-- Settles O8: two pairs a word satisfies are the same pair (`row_unique`). -/
theorem opcodeTableEntriesAreDisjoint : Obligations.OpcodeTableEntriesAreDisjoint :=
  ⟨rfl, fun _ _ _ hr hq hwr hwq => row_unique hr hq (eq_of_beq hwr) (eq_of_beq hwq)⟩

/-! What a word that satisfies a pair decodes to (R61) -/

theorem mem_specOpcodeTriples (r : Row) : r ∈ opcodeTable ↔ (r.op, r.mask, r.pattern) ∈ specOpcodeTriples := by
  have htable : specOpcodeTriples = opcodeTable.map fun r => (r.op, r.mask, r.pattern) := rfl
  rw [htable, List.mem_map]
  constructor
  · exact fun h => ⟨r, h, rfl⟩
  · rintro ⟨⟨o, m, p⟩, h, heq⟩
    cases heq
    exact h

section
open Machine
variable {o : Op} {w : Word}

/-- R51 -/
theorem rdOf_of_destOf {rd : RegIdx} (h : destOf (operandsOf o w) = some rd) : rd = rdOf w := by
  cases o <;> cases h <;> rfl

theorem rs1Of_rs2Of_of_sourcesOf {a b : RegIdx} (h : sourcesOf (operandsOf o w) = [a, b]) : a = rs1Of w ∧ b = rs2Of w := by
  cases o <;> cases h <;> exact ⟨rfl, rfl⟩

theorem rs1Of_of_sourcesOf {a : RegIdx} (h : sourcesOf (operandsOf o w) = [a]) : a = rs1Of w := by
  cases o <;> cases h <;> rfl

/-- R58 -/
theorem shamt_of_operandsOf {rd rs1 shamt : RegIdx} (h : operandsOf o w = .slli rd rs1 shamt ∨
    operandsOf o w = .srli rd rs1 shamt ∨ operandsOf o w = .srai rd rs1 shamt) : shamt = rs2Of w := by
  obtain h | h | h := h <;> cases o <;> cases h <;> rfl

/-- R52 to R56: an instruction takes the immediate of its group's format; the shifts of OP-IMM alone take none. -/
theorem immediateOf_operandsOf (ho : o ∉ ([.slli, .srli, .srai] : List Op)) :
    immediateOf (operandsOf o w) = immOf (some o.group) w := by
  cases o <;> simp at ho <;> rfl

end

/-- Settles O9: the pair names the word's operation (`opOf_eq_some`), and its instruction has the operands of its format. -/
theorem acceptedWordDecodesToItsRow : Obligations.AcceptedWordDecodesToItsRow := by
  refine ⟨mem_specOpcodeTriples, fun w mask pattern o hmem hw => ?_⟩
  have hop : opOf w = some o := opOf_eq_some.mpr ⟨⟨o, mask, pattern⟩, (mem_specOpcodeTriples _).mpr hmem, rfl, hw⟩
  refine ⟨operandsOf o w, decode_of_op hop, operandsOf_op o w, fun _ => rdOf_of_destOf, fun _ _ => rs1Of_rs2Of_of_sourcesOf,
    fun _ => rs1Of_of_sourcesOf, fun _ _ _ => shamt_of_operandsOf, ?u, ?j, ?i, ?b, ?s⟩
  case u =>
    intro ho
    rw [← immU_eq_and]
    fin_cases ho <;> rfl
  case j => rintro rfl; rfl
  case i | b | s =>
    intro ho
    fin_cases ho <;> rfl

end Sys2Proof
end

/-! ### 30_encoding.md: the rejected words, and the decoder's outputs -/

section
namespace Sys2Proof

section
variable {w : Word} {r : DecodeReject}

/-- R70: a word whose opcode names no group satisfies no pair. -/
theorem opOf_of_groupOf_none (h : groupOf w = none) : opOf w = none := by
  cases hop : opOf w with
  | none => rfl
  | some o => cases h.symm.trans (groupOf_of_op hop)

/-- R60: the opcodes that name a group. -/
theorem groupOf_eq_none : groupOf w = none ↔
    opcodeOf w ∉ ([0x37#7, 0x17#7, 0x6F#7, 0x67#7, 0x63#7, 0x03#7, 0x23#7, 0x13#7, 0x33#7, 0x0F#7, 0x73#7] : List _) := by
  unfold groupOf
  generalize opcodeOf w = o
  revert o
  decide

/-- R70: a word of a group satisfies no pair exactly when it has the funct3 and funct7 of none of the group's operations. -/
theorem opOf_eq_none_of_group {g : Group} (hg : groupOf w = some g) : opOf w = none ↔ ∀ o ∈ g.ops, ¬ o.HasFuncts w := by
  constructor
  · intro hnone o ho hfuncts
    have hopcode : opcodeOf w = o.group.opcode := group_of_mem_ops ho ▸ groupOf_eq_some.mp hg
    simp [opOf_eq_some_iff.mpr ⟨hopcode, hfuncts⟩] at hnone
  · intro h
    cases hop : opOf w with
    | none => rfl
    | some o =>
      cases hg.symm.trans (groupOf_of_op hop)
      exact absurd (opOf_eq_some_iff.mp hop).2 (h o (mem_ops_group o))

/-- R68, R71: the groups keyed by the opcode alone. -/
theorem decode_ne_rejected_of_opcodeGroup {g : Group} (hg : groupOf w = some g)
    (hgroup : g ∈ ([.lui, .auipc, .jal, .jalr, .fence, .system] : List Group)) : decode w ≠ .rejected r := by
  rw [Ne, decode_rejected, opOf_eq_none_of_group hg]
  fin_cases hgroup <;> simp [Group.ops, Op.HasFuncts, Op.funct3, Op.funct7]

/-- R70: a rejected word is rejected under its group's name. -/
theorem decode_rejected_iff {c : DecodeReject} (hc : rejectReason w = c) :
    decode w = .rejected r ↔ r = c ∧ opOf w = none := by
  rw [decode_rejected, hc, and_comm, eq_comm]

/-- R70 item 1 -/
theorem decode_rejected_of_noGroup (hg : groupOf w = none) : decode w = .rejected r ↔ r = .unknownOpcode := by
  rw [decode_rejected_iff (c := .unknownOpcode) (by rw [rejectReason, hg])]
  exact and_iff_left (opOf_of_groupOf_none hg)

/-- R70 item 2 -/
theorem decode_rejected_of_branch (hg : groupOf w = some .branch) :
    decode w = .rejected r ↔ r = .branchFunct3 ∧ funct3Of w ∈ ([2#3, 3#3] : List _) := by
  have hothers : ∀ f : BitVec 3, (¬f = 0 ∧ ¬f = 1 ∧ ¬f = 4 ∧ ¬f = 5 ∧ ¬f = 6 ∧ ¬f = 7) ↔ f = 2 ∨ f = 3 := by decide
  rw [decode_rejected_iff (c := .branchFunct3) (by rw [rejectReason, hg]), opOf_eq_none_of_group hg]
  simpa [Group.ops, Op.HasFuncts, Op.funct3, Op.funct7] using fun _ => hothers (funct3Of w)

/-- R70 item 3 -/
theorem decode_rejected_of_load (hg : groupOf w = some .load) :
    decode w = .rejected r ↔ r = .loadFunct3 ∧ funct3Of w ∈ ([3#3, 6#3, 7#3] : List _) := by
  have hothers : ∀ f : BitVec 3, (¬f = 0 ∧ ¬f = 1 ∧ ¬f = 2 ∧ ¬f = 4 ∧ ¬f = 5) ↔ f = 3 ∨ f = 6 ∨ f = 7 := by decide
  rw [decode_rejected_iff (c := .loadFunct3) (by rw [rejectReason, hg]), opOf_eq_none_of_group hg]
  simpa [Group.ops, Op.HasFuncts, Op.funct3, Op.funct7] using fun _ => hothers (funct3Of w)

/-- R70 item 4 -/
theorem decode_rejected_of_store (hg : groupOf w = some .store) :
    decode w = .rejected r ↔ r = .storeFunct3 ∧ funct3Of w ∈ ([3#3, 4#3, 5#3, 6#3, 7#3] : List _) := by
  have hothers : ∀ f : BitVec 3, (¬f = 0 ∧ ¬f = 1 ∧ ¬f = 2) ↔ f = 3 ∨ f = 4 ∨ f = 5 ∨ f = 6 ∨ f = 7 := by decide
  rw [decode_rejected_iff (c := .storeFunct3) (by rw [rejectReason, hg]), opOf_eq_none_of_group hg]
  simpa [Group.ops, Op.HasFuncts, Op.funct3, Op.funct7] using fun _ => hothers (funct3Of w)

theorem funct3_cases : ∀ f : BitVec 3, f = 0 ∨ f = 1 ∨ f = 2 ∨ f = 3 ∨ f = 4 ∨ f = 5 ∨ f = 6 ∨ f = 7 := by decide

/-- R66: of OP-IMM the shifts alone compare the upper bits, and every funct3 has an operation. -/
theorem opOf_eq_none_of_opImm (hg : groupOf w = some .opImm) : opOf w = none ↔
    funct3Of w = 1#3 ∧ funct7Of w ≠ 0#7 ∨ funct3Of w = 5#3 ∧ funct7Of w ≠ 0#7 ∧ funct7Of w ≠ 0x20#7 := by
  rw [opOf_eq_none_of_group hg]
  simp only [Group.ops, List.forall_mem_cons, Op.HasFuncts, Op.funct3, Op.funct7, Option.some.injEq, forall_eq', reduceCtorEq,
    false_implies, implies_true, and_true]
  obtain h | h | h | h | h | h | h | h := funct3_cases (funct3Of w) <;> simp [h]

/-- R67: of OP every funct3 has an operation with funct7 0000000, and ADD and SRL have a second one. -/
theorem opOf_eq_none_of_op (hg : groupOf w = some .op) : opOf w = none ↔
    funct7Of w ≠ 0#7 ∧ (funct7Of w = 0x20#7 → funct3Of w ≠ 0#3 ∧ funct3Of w ≠ 5#3) := by
  rw [opOf_eq_none_of_group hg]
  simp only [Group.ops, List.forall_mem_cons, Op.HasFuncts, Op.funct3, Op.funct7, Option.some.injEq, forall_eq']
  obtain h | h | h | h | h | h | h | h := funct3_cases (funct3Of w) <;> simp [h]

/-- R70 items 5 and 6 -/
theorem decode_rejected_of_opImm (hg : groupOf w = some .opImm) : decode w = .rejected r ↔
    (r = .leftShiftUpperBits ∧ funct3Of w = 1#3 ∧ funct7Of w ≠ 0#7) ∨
    (r = .rightShiftUpperBits ∧ funct3Of w = 5#3 ∧ funct7Of w ≠ 0#7 ∧ funct7Of w ≠ 0x20#7) := by
  by_cases hleft : funct3Of w = 1#3
  · rw [decode_rejected_iff (c := .leftShiftUpperBits) (by simp [rejectReason, hg, hleft]), opOf_eq_none_of_opImm hg]
    simp [hleft]
  · rw [decode_rejected_iff (c := .rightShiftUpperBits) (by simp [rejectReason, hg, hleft]), opOf_eq_none_of_opImm hg]
    simp [hleft]

/-- R70 items 7 and 8 -/
theorem decode_rejected_of_op (hg : groupOf w = some .op) : decode w = .rejected r ↔
    (r = .opFunct7 ∧ funct7Of w ≠ 0#7 ∧ funct7Of w ≠ 0x20#7) ∨
    (r = .opFunct3 ∧ funct7Of w = 0x20#7 ∧ funct3Of w ≠ 0#3 ∧ funct3Of w ≠ 5#3) := by
  by_cases hsecond : funct7Of w = 0x20#7
  · rw [decode_rejected_iff (c := .opFunct3) (by simp [rejectReason, hg, hsecond]), opOf_eq_none_of_op hg]
    simp [hsecond]
  · rw [decode_rejected_iff (c := .opFunct7) (by simp [rejectReason, hg, hsecond]), opOf_eq_none_of_op hg]
    simp [hsecond]

end

/-- Settles O10: the group of the word, if it has one, decides which classes it can fall in. -/
theorem rejectedWordsAreTheEightClasses : Obligations.RejectedWordsAreTheEightClasses := by
  intro w
  cases hg : groupOf w with
  | none =>
    have hopcode := groupOf_eq_none.mp hg
    simp only [List.mem_cons, List.not_mem_nil, or_false, not_or] at hopcode
    simp [decode_rejected_of_noGroup hg, hopcode]
  | some g =>
    have hopcode : opcodeOf w = g.opcode := groupOf_eq_some.mp hg
    cases g with
    | branch => simp [decode_rejected_of_branch hg, hopcode, Group.opcode]
    | load => simp [decode_rejected_of_load hg, hopcode, Group.opcode]
    | store => simp [decode_rejected_of_store hg, hopcode, Group.opcode]
    | opImm => simp [decode_rejected_of_opImm hg, hopcode, Group.opcode]
    | op => simp [decode_rejected_of_op hg, hopcode, Group.opcode]
    | lui | auipc | jal | jalr | fence | system =>
      simp [decode_ne_rejected_of_opcodeGroup hg (by decide), hopcode, Group.opcode]

/-! The decoder's outputs (R62) -/

theorem illegalWord_iff (w : Word) :
    illegalWord w = true ↔ (∃ r, decode w = .rejected r) ∨ decode w = .ok .fence ∨ decode w = .ok .system := by
  unfold illegalWord decode
  cases opOf w with
  | none => simp
  | some o => cases o <;> simp [operandsOf]

theorem decoderOutputs_op {w : Word} {o : Op} (hop : opOf w = some o) (hlegal : illegalWord w = false) :
    (decoderOutputs w).op = some o := by
  simp [decoderOutputs, hlegal, hop]

/-- Settles O11: the verdict and the operation follow the decoder (`illegalWord_iff`), the group its opcode
(`groupOf_eq_some`), and the immediate the group's format. -/
theorem decoderOutputsDescribeTheDecodedWord : Obligations.DecoderOutputsDescribeTheDecodedWord := by
  intro w
  refine ⟨illegalWord_iff w, fun i hdec => decoderOutputs_op (decode_ok hdec).1, rfl, rfl, rfl, rfl, rfl, fun p hp => ?group,
    fun g hg => ?imm⟩
  case group =>
    have hopcode : p.1 = p.2.opcode := by fin_cases hp <;> rfl
    rw [hopcode]
    exact groupOf_eq_some
  case imm =>
    have himm : (decoderOutputs w).imm = immOf (some g) w := congrArg (immOf · w) hg
    rw [himm, ← immU_eq_and]
    cases g <;> simp [immOf] <;> rfl

/-- Settles O12, by running the decoder on each word. -/
theorem writtenOutWordsDecode : Obligations.WrittenOutWordsDecode := by
  unfold Obligations.WrittenOutWordsDecode
  decide

end Sys2Proof
end

/-! ### 42_jumps.md and 70_reset_and_hazards.md: even pcs, and the self-jump -/

section
namespace Sys2Proof.Machine

/-! Parity of the pc (R112) -/

theorem add_even {a b : Word} (ha : a.toNat % 2 = 0) (hb : b.toNat % 2 = 0) : (a + b).toNat % 2 = 0 := by
  rw [BitVec.toNat_add]
  omega

theorem toNat_even {x : Word} (h : x.toInt % 2 = 0) : x.toNat % 2 = 0 := by
  rw [BitVec.toInt_eq_toNat_cond] at h
  split at h <;> omega

theorem even_of_fitsU {imm : Word} (h : fitsU imm = true) : imm.toNat % 2 = 0 := by
  simp only [fitsU, decide_eq_true_eq] at h
  omega

theorem even_of_fitsB {imm : Word} (h : fitsB imm = true) : imm.toNat % 2 = 0 := by
  simp only [fitsB, decide_eq_true_eq] at h
  exact toNat_even h.2.2

theorem even_of_fitsJ {imm : Word} (h : fitsJ imm = true) : imm.toNat % 2 = 0 := by
  simp only [fitsJ, decide_eq_true_eq] at h
  exact toNat_even h.2.2

section
variable {s t : State} (heven : s.pc.toNat % 2 = 0)
include heven

theorem sequential_even : (sequential s.pc).toNat % 2 = 0 := add_even heven (by decide)

theorem auipc_even {rd : RegIdx} {imm : Word} (himm : imm.toNat % 2 = 0) (h : execAuipc rd imm s = .next t) :
    t.pc.toNat % 2 = 0 := by
  cases hmode : s.cfg.auipcMode with
  | canonical =>
    rw [pc_of_finishWith ((execAuipc_canonical hmode).symm.trans h)]
    exact sequential_even heven
  | legacySource =>
    cases (execAuipc_legacy hmode rd imm).symm.trans h
    rw [setPc_pc, auipcLegacyTarget]
    split_ifs
    · exact sequential_even heven
    · exact add_even heven himm

theorem branch_even {c : BranchCond} {rs1 rs2 : RegIdx} {imm : Word} (himm : imm.toNat % 2 = 0)
    (h : branch c rs1 rs2 imm s = .next t) : t.pc.toNat % 2 = 0 := by
  cases h
  rw [setPc_pc]
  split_ifs
  · exact add_even heven himm
  · exact sequential_even heven

/-- A well-formed instruction that redirects the pc goes to an even address; every other one goes on (R82). -/
theorem exec_even {i : Instr} (hwf : i.wellFormed = true) (h : exec i s = .next t) (hrun : t.runState = .running) :
    t.pc.toNat % 2 = 0 := by
  cases i with
  | auipc rd imm => exact auipc_even heven (even_of_fitsU hwf) h
  | jal rd imm =>
    cases h
    exact add_even heven (even_of_fitsJ hwf)
  | jalr rd rs1 imm =>
    cases h
    exact jalrTarget_even _ imm
  | beq rs1 rs2 imm | bne rs1 rs2 imm | blt rs1 rs2 imm | bge rs1 rs2 imm | bltu rs1 rs2 imm | bgeu rs1 rs2 imm =>
    exact branch_even heven (even_of_fitsB hwf) h
  | _ =>
    rw [pc_of_exec h hrun rfl]
    exact sequential_even heven

end

/-- Settles O25: a step that faults keeps the pc (R189); any other runs a decoded, hence well-formed, instruction. -/
theorem evenPcStaysEven : Obligations.EvenPcStaysEven := by
  intro s t heven h
  cases hend : t.runState with
  | haltedOnFault =>
    obtain ⟨k, rfl⟩ := step_halted h hend
    exact heven
  | running =>
    obtain ⟨_, ⟨_, rfl⟩ | ⟨_, _, _, _, rfl⟩ | ⟨w, i, _, hdec, hexec⟩⟩ := step_cases h
    · cases hend
    · cases hend
    · exact exec_even heven (wellFormed_of_decode hdec) hexec hend

/-! The self-jump (R215, D19) -/

/-- The convention names a JAL of offset 0 at the pc. -/
theorem atSelfJump_iff (s : State) :
    s.atSelfJump = true ↔ ∃ w rd, s.fetchWord = some w ∧ decode w = .ok (.jal rd 0#32) := by
  unfold State.atSelfJump
  cases s.fetchWord with
  | none => simp
  | some w =>
    cases hdec : decode w with
    | rejected r => simp [hdec]
    | ok i => cases i <;> simp [hdec]

theorem fetchWord_writeReg (s : State) (r : RegIdx) (v : Word) : (s.writeReg r v).fetchWord = s.fetchWord := by
  unfold State.writeReg
  split <;> rfl

/-- A register written twice holds the second value (R12, R13). -/
theorem writeReg_writeReg_same (s : State) (r : RegIdx) (u v : Word) : (s.writeReg r u).writeReg r v = s.writeReg r v := by
  unfold State.writeReg
  split
  · rfl
  · simp [Vector.set_set]

theorem setPc_self (s : State) : s.setPc s.pc = s := rfl

/-- A JAL of offset 0 writes its link and stays. -/
theorem exec_selfJump (rd : RegIdx) (s : State) : exec (.jal rd 0#32) s = .next (s.writeReg rd (sequential s.pc)) := by
  have htarget : pcRelative s.pc 0#32 = (s.writeReg rd (sequential s.pc)).pc := by simp [pcRelative]
  show Host.Outcome.next ((s.writeReg rd (sequential s.pc)).setPc (pcRelative s.pc 0#32)) = _
  rw [htarget, setPc_self]

section
variable {s : State} {w : Word} {rd : RegIdx} (hrun : s.runState = .running) (hfetch : s.fetchWord = some w)
  (hdec : decode w = .ok (.jal rd 0#32))
include hrun hfetch hdec

theorem step_selfJump : step s = .next (s.writeReg rd (sequential s.pc)) :=
  (step_of_decode hrun hfetch hdec).trans (exec_selfJump rd s)

/-- The step after the first finds the same word at the same pc and writes the same link again. -/
theorem step_selfJump_again :
    step (s.writeReg rd (sequential s.pc)) = .next (s.writeReg rd (sequential s.pc)) := by
  have hagain := step_selfJump (s := s.writeReg rd (sequential s.pc)) ((writeReg_runState ..).trans hrun)
    ((fetchWord_writeReg ..).trans hfetch) hdec
  rwa [writeReg_pc, writeReg_writeReg_same] at hagain

/-- A run from a self-jump is at its first state, or at that state with the link written. -/
theorem reaches_selfJump {t : State} (hreach : Reaches s t) : t = s ∨ t = s.writeReg rd (sequential s.pc) := by
  induction hreach with
  | start => exact .inl rfl
  | next _ hstep ih =>
    obtain rfl | rfl := ih
    · cases (step_selfJump hrun hfetch hdec).symm.trans hstep
      exact .inr rfl
    · cases (step_selfJump_again hrun hfetch hdec).symm.trans hstep
      exact .inr rfl

end

/-- Settles O27: in either state that a run is in (`reaches_selfJump`) the step answers the state with the link written. -/
theorem selfJumpRepeatsForEver : Obligations.SelfJumpRepeatsForEver := by
  refine ⟨atSelfJump_iff, fun s w rd hrun hfetch hdec => ⟨rdOf_of_destOf (o := .jal) ?rd, fun t hreach => ?loop⟩⟩
  case rd => exact congrArg destOf (decode_ok hdec).2.symm
  case loop =>
    have hres : s.RegResult (s.writeReg rd (sequential s.pc)) rd (s.pc + 4#32) s.pc := by
      have h := regResult_writeReg s rd (sequential s.pc) (s.writeReg rd (sequential s.pc)).pc
      rwa [setPc_self, writeReg_pc] at h
    obtain rfl | rfl := reaches_selfJump hrun hfetch hdec hreach
    · exact ⟨rfl, hfetch, (atSelfJump_iff _).mpr ⟨w, rd, hfetch, hdec⟩, _, step_selfJump hrun hfetch hdec, hres⟩
    · have hfetch' := (fetchWord_writeReg s rd (sequential s.pc)).trans hfetch
      exact ⟨writeReg_pc .., hfetch', (atSelfJump_iff _).mpr ⟨w, rd, hfetch', hdec⟩, _,
        step_selfJump_again hrun hfetch hdec, hres⟩

end Sys2Proof.Machine
end

/-! ### 10_state.md: the registers an instruction reads and writes (R14) -/

section
namespace Sys2Proof.Machine

/-- What a handler does to a state, all its values computed. -/
inductive Action where
  | fault (k : FaultKind)
  | result (rd : RegIdx) (v pc' : Word)
  | goto (pc' : Word)
  | stored (addr : Word) (w : Width) (v : Word)

def Action.run : Action → State → State
  | .fault k, s => s.takeFault k
  | .result rd v pc', s => (s.writeReg rd v).setPc pc'
  | .goto pc', s => s.setPc pc'
  | .stored addr w v, s => (s.writeBytes addr w v).advancePc

/-- The register an action may write is `dest`; a fault writes none whatever `dest` is. -/
def Action.Writes : Action → Option RegIdx → Prop
  | .fault _, _ => True
  | .result rd _ _, dest => dest = some rd
  | .goto _, dest => dest = none
  | .stored _ _ _, dest => dest = none

/-- Two states that differ at most in registers outside `src` and in the control state. -/
structure SameView (src : List RegIdx) (s s' : State) : Prop where
  pc : s'.pc = s.pc
  mem : s'.mem = s.mem
  cfg : s'.cfg = s.cfg
  reads : ∀ r ∈ src, s'.readReg r = s.readReg r

/-- A handler that reads no register outside `src` and writes none but `dest`: it does one action to all states that agree
on `src`. -/
def Touches (src : List RegIdx) (dest : Option RegIdx) (f : State → Result) : Prop :=
  ∀ s, ∃ a : Action, a.Writes dest ∧ ∀ s', SameView src s s' → f s' = .next (a.run s')

section
variable {src : List RegIdx} {s s' : State} (h : SameView src s s')
include h

theorem SameView.memSize : s'.memSize = s.memSize := by rw [State.memSize, h.cfg, State.memSize]

theorem SameView.readBytes (addr : Word) (w : Width) : s'.readBytes addr w = s.readBytes addr w := by
  simp only [State.readBytes, State.byteAt, h.mem]

end

/-- R82, R94 -/
theorem finishWith_eq (rd : RegIdx) (v : Word) (s : State) :
    finishWith rd v s = .next ((s.writeReg rd v).setPc (sequential s.pc)) := by
  rw [finishWith, State.advancePc, writeReg_pc]

/-! The shared handlers -/

section
variable (rd rs1 rs2 : RegIdx) (imm : Word)

theorem touches_finishWith {src : List RegIdx} {v : State → Word} (hv : ∀ s s', SameView src s s' → v s' = v s) :
    Touches src (some rd) (fun s => finishWith rd (v s) s) := by
  intro s
  refine ⟨.result rd (v s) (sequential s.pc), rfl, fun s' h => ?_⟩
  show finishWith rd (v s') s' = _
  rw [finishWith_eq, hv s s' h, h.pc]
  rfl

theorem touches_aluImm (f : AluOp) (b : Word) : Touches [rs1] (some rd) (aluImm f rd rs1 b) :=
  touches_finishWith rd fun s s' h => by rw [h.reads rs1 (by simp)]

theorem touches_aluReg (f : AluOp) : Touches [rs1, rs2] (some rd) (aluReg f rd rs1 rs2) :=
  touches_finishWith rd fun s s' h => by rw [h.reads rs1 (by simp), h.reads rs2 (by simp)]

theorem touches_jal : Touches [] (some rd) (execJal rd imm) := fun s =>
  ⟨.result rd (sequential s.pc) (pcRelative s.pc imm), rfl, fun s' h => by rw [execJal, jumpAndLink, h.pc]; rfl⟩

theorem touches_jalr : Touches [rs1] (some rd) (execJalr rd rs1 imm) := fun s =>
  ⟨.result rd (sequential s.pc) (jalrTarget (s.readReg rs1) imm), rfl, fun s' h => by
    rw [execJalr, jumpAndLink, h.pc, h.reads rs1 (by simp)]; rfl⟩

theorem touches_branch (c : BranchCond) : Touches [rs1, rs2] none (branch c rs1 rs2 imm) := by
  intro s
  refine ⟨.goto (if branchTaken c (s.readReg rs1) (s.readReg rs2) then pcRelative s.pc imm else sequential s.pc), rfl,
    fun s' h => ?_⟩
  rw [branch, h.pc, h.reads rs1 (by simp), h.reads rs2 (by simp)]
  rfl

theorem touches_load (w : Width) (e : LoadExt) : Touches [rs1] (some rd) (load w e rd rs1 imm) := by
  intro s
  by_cases hpast : s.memSize < (effectiveAddress (s.readReg rs1) imm).toNat + w.bytes
  · refine ⟨.fault .outOfRange, trivial, fun s' h => ?_⟩
    rw [load_eq, h.memSize, h.reads rs1 (by simp), if_pos hpast]
    rfl
  · refine ⟨.result rd (extendLoad w e (s.readBytes (effectiveAddress (s.readReg rs1) imm) w)) (sequential s.pc), rfl,
      fun s' h => ?_⟩
    rw [load_eq, h.memSize, h.reads rs1 (by simp), if_neg hpast, h.readBytes, State.advancePc, writeReg_pc, h.pc]
    rfl

theorem touches_store (w : Width) : Touches [rs1, rs2] none (store w rs1 rs2 imm) := by
  intro s
  by_cases hpast : s.memSize < (effectiveAddress (s.readReg rs1) imm).toNat + w.bytes
  · refine ⟨.fault .outOfRange, trivial, fun s' h => ?_⟩
    rw [store_eq, h.memSize, h.reads rs1 (by simp), if_pos hpast]
    rfl
  · refine ⟨.stored (effectiveAddress (s.readReg rs1) imm) w (s.readReg rs2), rfl, fun s' h => ?_⟩
    rw [store_eq, h.memSize, h.reads rs1 (by simp), h.reads rs2 (by simp), if_neg hpast]
    rfl

theorem touches_auipc : Touches [] (some rd) (execAuipc rd imm) := by
  intro s
  cases hmode : s.cfg.auipcMode with
  | canonical =>
    refine ⟨.result rd (pcRelative s.pc imm) (sequential s.pc), rfl, fun s' h => ?_⟩
    rw [execAuipc_canonical (by rw [h.cfg, hmode]), finishWith_eq, h.pc]
    rfl
  | legacySource =>
    refine ⟨.result rd (auipcLegacyTarget s.pc imm) (auipcLegacyTarget s.pc imm), rfl, fun s' h => ?_⟩
    rw [execAuipc_legacy (by rw [h.cfg, hmode]), h.pc]
    rfl

end

/-- R14: every instruction reads the registers it names as sources and writes the one it names as destination. -/
theorem touches_exec (i : Instr) : Touches (sourcesOf i) (destOf i) (exec i) := by
  cases i with
  | lui rd imm => exact touches_finishWith rd fun _ _ _ => rfl
  | auipc rd imm => exact touches_auipc rd imm
  | jal rd imm => exact touches_jal rd imm
  | jalr rd rs1 imm => exact touches_jalr rd rs1 imm
  | beq rs1 rs2 imm | bne rs1 rs2 imm | blt rs1 rs2 imm | bge rs1 rs2 imm | bltu rs1 rs2 imm | bgeu rs1 rs2 imm =>
    exact touches_branch rs1 rs2 imm _
  | lb rd rs1 imm | lh rd rs1 imm | lw rd rs1 imm | lbu rd rs1 imm | lhu rd rs1 imm => exact touches_load rd rs1 imm _ _
  | sb rs1 rs2 imm | sh rs1 rs2 imm | sw rs1 rs2 imm => exact touches_store rs1 rs2 imm _
  | addi rd rs1 imm | slti rd rs1 imm | sltiu rd rs1 imm | xori rd rs1 imm | ori rd rs1 imm | andi rd rs1 imm =>
    exact touches_aluImm rd rs1 _ imm
  | slli rd rs1 shamt | srli rd rs1 shamt | srai rd rs1 shamt => exact touches_aluImm rd rs1 _ (shamt.setWidth 32)
  | add rd rs1 rs2 | sub rd rs1 rs2 | sll rd rs1 rs2 | slt rd rs1 rs2 | sltu rd rs1 rs2
  | xor rd rs1 rs2 | srl rd rs1 rs2 | sra rd rs1 rs2 | or rd rs1 rs2 | and rd rs1 rs2 => exact touches_aluReg rd rs1 rs2 _
  | fence | system => exact fun _ => ⟨.fault .illegalInstruction, trivial, fun _ _ => rfl⟩

theorem sameView_writeReg {src : List RegIdx} {r : RegIdx} (hr : r ∉ src) (s : State) (v : Word) :
    SameView src s (s.writeReg r v) where
  pc := writeReg_pc ..
  mem := writeReg_mem ..
  cfg := writeReg_cfg ..
  reads q hq := readReg_writeReg_other s r q v (fun h => hr (h ▸ hq))

/-! Actions and register writes -/

theorem writeReg_comm {r q : RegIdx} (hne : r ≠ q) (s : State) (u v : Word) :
    (s.writeReg r u).writeReg q v = (s.writeReg q v).writeReg r u := by
  have hslot : r.toNat ≠ q.toNat := fun h => hne (BitVec.eq_of_toNat_eq h)
  by_cases hr : r = 0#5
  · rw [hr, writeReg_zero, writeReg_zero]
  · by_cases hq : q = 0#5
    · rw [hq, writeReg_zero, writeReg_zero]
    · simp only [State.writeReg, if_neg hr, if_neg hq, Vector.set_comm u v hslot]

theorem writeReg_takeFault (s : State) (r : RegIdx) (v : Word) (k : FaultKind) :
    (s.writeReg r v).takeFault k = (s.takeFault k).writeReg r v := by
  unfold State.writeReg
  split <;> rfl

theorem writeReg_writeBytes (s : State) (r : RegIdx) (u : Word) (addr : Word) (w : Width) (v : Word) :
    (s.writeReg r u).writeBytes addr w v = (s.writeBytes addr w v).writeReg r u := by
  unfold State.writeReg
  split <;> cases w <;> rfl

theorem writeReg_advancePc (s : State) (r : RegIdx) (v : Word) :
    (s.writeReg r v).advancePc = s.advancePc.writeReg r v := by
  rw [State.advancePc, State.advancePc, writeReg_setPc, writeReg_pc]

section
variable {a : Action} {dest : Option RegIdx} (ha : a.Writes dest) (s : State) (r : RegIdx) (v : Word)
include ha

theorem readReg_run (hr : dest ≠ some r) : (a.run s).readReg r = s.readReg r := by
  cases a with
  | fault k => rfl
  | result rd u pc' =>
    cases ha
    exact readReg_writeReg_other s rd r u (fun h => hr (h ▸ rfl))
  | goto pc' => rfl
  | stored addr w u => exact writeBytes_readReg s addr w u r

/-- An action leaves a value that it does not overwrite where it is. -/
theorem run_writeReg (hr : dest ≠ some r) : a.run (s.writeReg r v) = (a.run s).writeReg r v := by
  cases a with
  | fault k => exact writeReg_takeFault s r v k
  | result rd u pc' =>
    cases ha
    rw [Action.run, Action.run, writeReg_setPc, writeReg_comm (fun h => hr (congrArg some h.symm))]
  | goto pc' => exact (writeReg_setPc s r v pc').symm
  | stored addr w u => rw [Action.run, Action.run, writeReg_writeBytes, writeReg_advancePc]

/-- An action that does not fault overwrites its destination. -/
theorem run_writeReg_dest (hr : dest = some r) (hrun : (a.run s).runState = .running) :
    a.run (s.writeReg r v) = a.run s := by
  cases a with
  | fault k => cases hrun
  | result rd u pc' =>
    cases hr.symm.trans ha
    rw [Action.run, Action.run, writeReg_writeReg_same]
  | goto pc' | stored addr w u => cases hr.symm.trans ha

end

/-- Settles O31: the instruction does the same action to the state with another value in `r`, which is not a source
(`touches_exec`); the action leaves or overwrites that value. -/
theorem instructionsTouchOnlyTheRegistersTheyName : Obligations.InstructionsTouchOnlyTheRegistersTheyName := by
  intro i s t h
  obtain ⟨a, hwrites, hsame⟩ := touches_exec i s
  cases h.symm.trans (hsame s ⟨rfl, rfl, rfl, fun _ _ => rfl⟩)
  refine ⟨fun r hr => readReg_run hwrites s r hr, fun r v hsrc hr => ?other, fun r v hsrc hr _ hrun => ?dest⟩
  case other => rw [hsame _ (sameView_writeReg hsrc s v), run_writeReg hwrites s r v hr]
  case dest => rw [hsame _ (sameView_writeReg hsrc s v), run_writeReg_dest hwrites s r v hr hrun]

end Sys2Proof.Machine
end

/-! ### 40_step_and_datapath.md: the block as hardware -/

section
namespace Sys2Proof

/-- R62: the decoder block's outputs for a word of a modelled operation. -/
theorem decoderOutputs_of_op {w : Word} {o : Op} (hop : opOf w = some o) (hgroup : o ≠ .fence ∧ o ≠ .system) :
    decoderOutputs w =
      { illegal := false, group := some o.group, op := some o, rd := rdOf w, rs1 := rs1Of w, rs2 := rs2Of w,
        funct3 := funct3Of w, funct7 := funct7Of w, imm := immOf (some o.group) w } := by
  have hlegal : illegalWord w = false := by
    unfold illegalWord
    rw [hop]
    cases o <;> simp at hgroup <;> rfl
  simp [decoderOutputs, hlegal, hop, groupOf_of_op hop]

namespace Machine

/-- R80: the datapath from the decoder's outputs on: register read, execute with at most one data access, commit. -/
def executeDecoded (d : DecoderOutputs) (s : State) : Result :=
  let access := (memRequest d (s.readReg d.rs1) (s.readReg d.rs2)).map s.memPort
  let out := execUnit s.cfg.auipcMode d s.pc (s.readReg d.rs1) (s.readReg d.rs2) (access.map (·.1))
  match out.faultOut with
  | some k => .next (s.takeFault k)
  | none => .next (((access.elim s (·.2)).regWritePort d.rd out.wData).setPc out.nextPc)

theorem fetchPort_rdata (s : State) : (s.memPort ⟨false, s.pc, .word, 0#32⟩).1.rdata = s.fetchWord := by
  show (match s.fetchWord with
    | none => ((⟨none, true⟩, s) : MemResponse × State)
    | some v => (⟨some v, false⟩, s)).1.rdata = s.fetchWord
  cases s.fetchWord <;> rfl

theorem datapathStep_of_fetch {s : State} {w : Word} (hrun : s.runState = .running) (hfetch : s.fetchWord = some w) :
    datapathStep s = executeDecoded (decoderOutputs w) s := by
  simp only [datapathStep, hrun, fetchPort_rdata, hfetch]
  rfl

/-- R95, R187: a word whose decoder verdict is illegal takes the fault. -/
theorem datapathStep_illegal {s : State} {w : Word} (hrun : s.runState = .running) (hfetch : s.fetchWord = some w)
    (hillegal : illegalWord w = true) : datapathStep s = .next (s.takeFault .illegalInstruction) := by
  rw [datapathStep_of_fetch hrun hfetch]
  simp [executeDecoded, execUnit, decoderOutputs, hillegal, ExecOutputs.faulted]

/-- R58, R87: a shift-immediate's operand, the whole I immediate, shifts by its `shamt` field. -/
theorem shiftAmount_immI (w : Word) : shiftAmount (immI w) = shiftAmount ((rs2Of w).setWidth 32) := by
  have hfield : (immI w).extractLsb' 0 5 = ((rs2Of w).setWidth 32).extractLsb' 0 5 := by
    apply BitVec.eq_of_getLsbD_eq
    intro i hi
    simp only [immI, rs2Of, BitVec.getLsbD_extractLsb', BitVec.getLsbD_signExtend, BitVec.getLsbD_setWidth]
    interval_cases i <;> simp
  rw [shiftAmount, hfield, shiftAmount]

theorem alu_immI_of_shift {f : AluOp} (hf : f ∈ ([.sll, .srl, .sra] : List AluOp)) (a w : Word) :
    alu f a (immI w) = alu f a ((rs2Of w).setWidth 32) := by
  fin_cases hf <;> simp only [alu, shiftAmount_immI]

theorem pc_of_memWrite {s t : State} {addr : Word} {n : Width} {v : Word} (h : s.memWrite addr n v = some t) :
    t.pc = s.pc := by
  obtain ⟨_, rfl⟩ := memWrite_cases h
  exact writeBytes_pc s addr n v

/-- R94: what the block does for an operation that is not of the FENCE or SYSTEM group is what its handler does. -/
theorem datapathStep_of_op {s : State} {w : Word} {o : Op} (hrun : s.runState = .running) (hfetch : s.fetchWord = some w)
    (hop : opOf w = some o) (hgroup : o ≠ .fence ∧ o ≠ .system) : datapathStep s = exec (operandsOf o w) s := by
  rw [datapathStep_of_fetch hrun hfetch, decoderOutputs_of_op hop hgroup, executeDecoded]
  cases o with
  | lui => exact (finishWith_eq ..).symm
  | auipc =>
    show _ = execAuipc (rdOf w) (immU w) s
    cases hmode : s.cfg.auipcMode with
    | canonical => rw [execAuipc_canonical hmode, finishWith_eq]; rfl
    | legacySource => rw [execAuipc_legacy hmode]; rfl
  | jal | jalr => rfl
  | beq | bne | blt | bge | bltu | bgeu => rfl
  | add | sub | sll | slt | sltu | xor | srl | sra | or | and => exact (finishWith_eq ..).symm
  | addi | slti | sltiu | xori | ori | andi => exact (finishWith_eq ..).symm
  | slli | srli | srai =>
    exact (finishWith_eq ..).symm.trans (congrArg (finishWith (rdOf w) · s) (alu_immI_of_shift (by decide) _ w))
  | lb | lh | lw | lbu | lhu =>
    simp only [operandsOf, exec, execLb, execLh, execLw, execLbu, execLhu, load, memRequest, accessSelect,
      Op.group, immOf, Option.bind_some, Option.map_some, State.memPort]
    generalize s.memRead _ _ = loaded
    cases loaded with
    | none => rfl
    | some v => exact (finishWith_eq ..).symm
  | sb | sh | sw =>
    simp only [operandsOf, exec, execSb, execSh, execSw, store, memRequest, accessSelect, Op.group, immOf,
      Option.bind_some, Option.map_some, State.memPort]
    generalize hstored : s.memWrite _ _ _ = stored
    cases stored with
    | none => rfl
    | some t =>
      show Host.Outcome.next (t.setPc (sequential s.pc)) = .next (t.setPc (sequential t.pc))
      rw [pc_of_memWrite hstored]
  | fence | system => simp at hgroup

/-- Settles O33, case by case as the step decides: halted, nothing fetched, a word of no operation, an operation. -/
theorem datapathComputesTheStep : Obligations.DatapathComputesTheStep := by
  intro s
  cases hrun : s.runState with
  | haltedOnFault => rw [step_of_halted hrun, datapathStep, hrun]
  | running =>
    cases hfetch : s.fetchWord with
    | none => simp only [datapathStep, step, hrun, fetchPort_rdata, hfetch, raise]
    | some w =>
      cases hop : opOf w with
      | none => rw [step_of_opOf_none hrun hfetch hop, datapathStep_illegal hrun hfetch (by rw [illegalWord, hop])]
      | some o =>
        rw [step_of_decode hrun hfetch (decode_of_op hop)]
        by_cases hgroup : o = .fence ∨ o = .system
        · obtain rfl | rfl := hgroup <;> exact datapathStep_illegal hrun hfetch (by rw [illegalWord, hop])
        · exact datapathStep_of_op hrun hfetch hop (not_or.mp hgroup)

end Machine

end Sys2Proof
end
